-- ==== Sys2Proof/Word.lean ====
section
/-!
DEFINITION. The word types of the hardware (spec/00_scope.md rule R9).
-/
namespace Sys2Proof

/-- A general register, the program counter, an address, an instruction word: 32 bits (R9). -/
abbrev Word := BitVec 32

/-- One addressable unit of memory: 8 bits (R9, R17). -/
abbrev Byte := BitVec 8

/-- The 16-bit immediate field of an I-type instruction (R51, R54). -/
abbrev Imm16 := BitVec 16

/-- The `shamt` field of an R-type instruction, which no instruction uses (R51, R56). -/
abbrev Shamt := BitVec 5

/-- A register index, 0 to 31 (R10). Every 5-bit field value is one of them (R57). -/
abbrev RegIdx := Fin 32

end Sys2Proof
end

