-- ==== Sys2Proof/Syntax.lean ====
section
/-!
DEFINITION. The instruction set of spec/00_scope.md rule R2: six instructions and UNIMPLEMENTED,
one constructor per row of spec/opcode_table.json.
-/
namespace Sys2Proof

/-- The seven mnemonics; an enumeration, with no display strings (R2, R20, decision D1). -/
inductive Mnemonic where
  | add | sub | addi | lw | sw | beq | unimplemented
  deriving DecidableEq, Repr

/-- A decoded instruction, operands in the order of the assembler syntax of R62. The ignored
`shamt` field of ADD and SUB is kept, and UNIMPLEMENTED keeps its whole word, so that every 32-bit
word is the encoding of exactly one instruction (assumption log 9, log 13). -/
inductive Instr where
  /-- `ADD rd, rs, rt` (R85). -/
  | add (rd rs rt : RegIdx) (shamt : Shamt)
  /-- `SUB rd, rs, rt`; `rs` is the minuend (R86). -/
  | sub (rd rs rt : RegIdx) (shamt : Shamt)
  /-- `ADDI rt, rs, imm`; `rt` is the destination (R87). -/
  | addi (rt rs : RegIdx) (imm : Imm16)
  /-- `LW rt, imm(rs)`; `rt` is the destination (R91). -/
  | lw (rt rs : RegIdx) (imm : Imm16)
  /-- `SW rt, imm(rs)`; `rt` is the register stored (R92). -/
  | sw (rt rs : RegIdx) (imm : Imm16)
  /-- `BEQ rs, rt, off`; `off` counts words (R95). -/
  | beq (rs rt : RegIdx) (off : Imm16)
  /-- `.word w` for a word that is none of the six (R100). -/
  | unimplemented (w : Word)
  deriving DecidableEq, Repr

end Sys2Proof
end

