-- ==== Sys2Proof/WellFormed.lean ====
section
/-!
DEFINITION. When a term of `Instr` is an instruction of the hardware. Every register number and every
immediate is legal (spec/30_encoding.md rules R54, R57), so there is one check: the word of an
UNIMPLEMENTED instruction is none of the six (spec/44_unimplemented.md rule R100).
-/
namespace Sys2Proof

/-- The condition of R100, written from its own words: the opcode is not in {0x00, 0x04, 0x08, 0x23,
0x2B}, or the opcode is 0x00 and the funct is not in {0x20, 0x22}. -/
def isUnimplementedWord (w : Word) : Bool :=
  let opcode := w.extractLsb' 26 6
  let funct := w.extractLsb' 0 6
  !([0x00#6, 0x04#6, 0x08#6, 0x23#6, 0x2B#6].contains opcode) ||
    (opcode == 0x00#6 && !([0x20#6, 0x22#6].contains funct))

/-- The well-formed instructions. -/
def Instr.wf : Instr → Bool
  | .add _ _ _ _ => true
  | .sub _ _ _ _ => true
  | .addi _ _ _ => true
  | .lw _ _ _ => true
  | .sw _ _ _ => true
  | .beq _ _ _ => true
  | .unimplemented w => isUnimplementedWord w

end Sys2Proof
end

