-- ==== Sys2Proof/Decode.lean ====
section
/-!
DEFINITION. Byte order of words, the fields of an instruction word, the decoder and the encoder
(spec/30_encoding.md; spec/20_memory.md rules R32 to R35 for the byte orders).
-/
namespace Sys2Proof

/-! ### Words and bytes -/

/-- The four bytes of a word, most significant first: the order of instruction words (R32, R33). -/
def bytesBE (w : Word) : List Byte :=
  [w.extractLsb' 24 8, w.extractLsb' 16 8, w.extractLsb' 8 8, w.extractLsb' 0 8]

/-- The four bytes of a word, least significant first: the order of data words (R34, R35). -/
def bytesLE (w : Word) : List Byte :=
  [w.extractLsb' 0 8, w.extractLsb' 8 8, w.extractLsb' 16 8, w.extractLsb' 24 8]

/-- The word whose four bytes at rising addresses are `b0 b1 b2 b3`, read big-endian (R32). -/
def wordBE (b0 b1 b2 b3 : Byte) : Word := b0 ++ b1 ++ b2 ++ b3

/-- The word whose four bytes at rising addresses are `b0 b1 b2 b3`, read little-endian (R34). -/
def wordLE (b0 b1 b2 b3 : Byte) : Word := b3 ++ b2 ++ b1 ++ b0

/-! ### Fields (R51 to R53) -/

/-- The register index a 5-bit field names; no value is reserved (R57). -/
def regOfField (f : BitVec 5) : RegIdx := f.toFin

/-- The 5-bit field that names a register. -/
def fieldOfReg (r : RegIdx) : BitVec 5 := BitVec.ofFin r

/-- `w[31:26]` (R51). -/
def opcodeOf (w : Word) : BitVec 6 := w.extractLsb' 26 6

/-- `w[25:21]` (R51). -/
def rsOf (w : Word) : RegIdx := regOfField (w.extractLsb' 21 5)

/-- `w[20:16]` (R51). -/
def rtOf (w : Word) : RegIdx := regOfField (w.extractLsb' 16 5)

/-- `w[15:11]` (R51). -/
def rdOf (w : Word) : RegIdx := regOfField (w.extractLsb' 11 5)

/-- `w[10:6]` (R51). -/
def shamtOf (w : Word) : Shamt := w.extractLsb' 6 5

/-- `w[5:0]` (R51). -/
def functOf (w : Word) : BitVec 6 := w.extractLsb' 0 6

/-- `w[15:0]` (R51). -/
def imm16Of (w : Word) : Imm16 := w.extractLsb' 0 16

/-! ### Decode (R55) -/

/-- The decode function of R55: total, one instruction for every word. -/
def decode (w : Word) : Instr :=
  if opcodeOf w = 0x00#6 then
    if functOf w = 0x20#6 then .add (rdOf w) (rsOf w) (rtOf w) (shamtOf w)
    else if functOf w = 0x22#6 then .sub (rdOf w) (rsOf w) (rtOf w) (shamtOf w)
    else .unimplemented w
  else if opcodeOf w = 0x08#6 then .addi (rtOf w) (rsOf w) (imm16Of w)
  else if opcodeOf w = 0x23#6 then .lw (rtOf w) (rsOf w) (imm16Of w)
  else if opcodeOf w = 0x2B#6 then .sw (rtOf w) (rsOf w) (imm16Of w)
  else if opcodeOf w = 0x04#6 then .beq (rsOf w) (rtOf w) (imm16Of w)
  else .unimplemented w

/-- Why a sequence of bytes is no instruction. -/
inductive DecodeError where
  /-- Fewer than the four bytes of an instruction are left (R50). Raised by `decodeBytes` only; safe:
  a step never sees it, since the fetch guard has found four bytes (assumption log 16). -/
  | truncated (bytesLeft : Nat)
  deriving DecidableEq, Repr

/-- Decode the first instruction of a sequence of bytes (lowest address first) and return the rest. -/
def decodeBytes : List Byte → Except DecodeError (Instr × List Byte)
  | b0 :: b1 :: b2 :: b3 :: rest => .ok (decode (wordBE b0 b1 b2 b3), rest)
  | short => .error (.truncated short.length)

/-- The mnemonic of an instruction (R55). -/
def Instr.mnemonic : Instr → Mnemonic
  | .add _ _ _ _ => .add
  | .sub _ _ _ _ => .sub
  | .addi _ _ _ => .addi
  | .lw _ _ _ => .lw
  | .sw _ _ _ => .sw
  | .beq _ _ _ => .beq
  | .unimplemented _ => .unimplemented

/-- The register an instruction writes (R12). -/
def Instr.dest : Instr → Option RegIdx
  | .add rd _ _ _ => some rd
  | .sub rd _ _ _ => some rd
  | .addi rt _ _ => some rt
  | .lw rt _ _ => some rt
  | .sw _ _ _ => none
  | .beq _ _ _ => none
  | .unimplemented _ => none

/-- The registers an instruction reads (R12). -/
def Instr.sources : Instr → List RegIdx
  | .add _ rs rt _ => [rs, rt]
  | .sub _ rs rt _ => [rs, rt]
  | .addi _ rs _ => [rs]
  | .lw _ rs _ => [rs]
  | .sw rt rs _ => [rs, rt]
  | .beq rs rt _ => [rs, rt]
  | .unimplemented _ => []

/-- The match and mask of a mnemonic's row in the opcode map of R55. UNIMPLEMENTED is the catch-all
row of spec/opcode_table.json, applied only when no other row matches. -/
def Mnemonic.matchMask : Mnemonic → Word × Word
  | .add => (0x00000020#32, 0xFC00003F#32)
  | .sub => (0x00000022#32, 0xFC00003F#32)
  | .addi => (0x20000000#32, 0xFC000000#32)
  | .lw => (0x8C000000#32, 0xFC000000#32)
  | .sw => (0xAC000000#32, 0xFC000000#32)
  | .beq => (0x10000000#32, 0xFC000000#32)
  | .unimplemented => (0x00000000#32, 0x00000000#32)

/-- `w & mask = match` for the mnemonic's row (R55). -/
abbrev Mnemonic.Matches (m : Mnemonic) (w : Word) : Prop := w &&& m.matchMask.2 = m.matchMask.1

/-! ### Encode (R61) -/

/-- `enc_R` of R61, with the `shamt` field that R61 sets to 0 as an argument. -/
def encR (funct : BitVec 6) (rd rs rt : RegIdx) (shamt : Shamt) : Word :=
  ((fieldOfReg rs).setWidth 32 <<< 21) ||| ((fieldOfReg rt).setWidth 32 <<< 16) |||
    ((fieldOfReg rd).setWidth 32 <<< 11) ||| (shamt.setWidth 32 <<< 6) ||| funct.setWidth 32

/-- `enc_I` of R61. -/
def encI (opcode : BitVec 6) (rs rt : RegIdx) (imm : Imm16) : Word :=
  (opcode.setWidth 32 <<< 26) ||| ((fieldOfReg rs).setWidth 32 <<< 21) |||
    ((fieldOfReg rt).setWidth 32 <<< 16) ||| imm.setWidth 32

/-- The encoder of R61; `.word w` for an UNIMPLEMENTED word (R62). -/
def encode : Instr → Word
  | .add rd rs rt shamt => encR 0x20#6 rd rs rt shamt
  | .sub rd rs rt shamt => encR 0x22#6 rd rs rt shamt
  | .addi rt rs imm => encI 0x08#6 rs rt imm
  | .lw rt rs imm => encI 0x23#6 rs rt imm
  | .sw rt rs imm => encI 0x2B#6 rs rt imm
  | .beq rs rt off => encI 0x04#6 rs rt off
  | .unimplemented w => w

/-! ### The opcode table's numbering -/

/-- The instruction word of a table row's bits: `nbits` bits of `w`, every bit above them 0. The table
numbers the bits of the one 32-bit word of R50 as R51 does. -/
def tableWord (nbits w : Nat) : Word := BitVec.ofNat 32 (w % 2 ^ nbits)

/-- The instruction the decoder reads from the word's bytes, laid out as the hardware stores them
(big-endian, R50). -/
def decodeTableWord (nbits w : Nat) : Option Instr :=
  match decodeBytes (bytesBE (tableWord nbits w)) with
  | .ok (i, _) => some i
  | .error _ => none

end Sys2Proof
end

