-- ==== Sys2Proof/Config.lean ====
section
/-!
DEFINITION. The implementation parameters of spec/00_scope.md rule R9. The spec leaves no value
open (R84, spec/93_implementation_defined.md), so no opaque constant stands here. The memory size
itself is carried by State (assumption log 1); here are its default and its legal range.
-/
namespace Sys2Proof.Config

/-- The default memory capacity in bytes (R9). -/
def memSizeDefault : Nat := 4096

/-- The least legal memory capacity (R9, decision D3). -/
def memSizeMin : Nat := 4

/-- The greatest legal memory capacity, 2^31 (R9, decision D3). -/
def memSizeMax : Nat := 2147483648

/-- The legal range of `MEM_SIZE` (R9, decision D3). -/
abbrev LegalMemSize (n : Nat) : Prop := memSizeMin ≤ n ∧ n ≤ memSizeMax

/-- `PC_RESET`, the program counter after reset (R9, R26, decision D4). -/
def pcReset : Word := 0#32

/-- The address the loader places the program at (R9, R41, R133). -/
def loadAddress : Nat := 0

end Sys2Proof.Config
end

