-- ==== Sys2Proof/Machine/State.lean ====
section
/-!
DEFINITION. The complete state of the hardware (spec/10_state.md rule R25), the reasons an operation can
stop, and the state after reset (R26, R130).
-/
namespace Sys2Proof.Machine

/-- The two halt causes (R18, R110). -/
inductive HaltCause where
  /-- The fetch guard failed: the pc leaves no room for a 4-byte fetch (R111). -/
  | outOfRange
  /-- An LW or SW address leaves no room for a 4-byte access (R112). -/
  | memoryFault
  deriving DecidableEq, Repr

/-- Memory: the bytes that are not 0, as (address, byte) pairs at strictly rising addresses
(`Memory.wf`). An unlisted address reads 0, the reset value of every byte (R26; assumption log 6). -/
abbrev Memory := List Host.Cell

/-- The state tuple of R25, with the parameter `MEM_SIZE` beside it (assumption log 1). It is the Machine State of
one hardware thread in one core (R6, R122): one pc and one register file, no identifier register, and nothing that
another instance could reach (`stepInstance` in Machine/Instances.lean). -/
structure State where
  /-- `MEM_SIZE`, fixed when the machine is constructed; no step changes it (R9, R17). -/
  memSize : Nat
  /-- `x[1]` to `x[31]`: entry `i - 1` holds `x[i]`. `x[0]` has no storage (R11, R25; log 7). -/
  regs : Vector Word 31
  /-- The program counter, a byte address (R14). -/
  pc : Word
  /-- The bytes of memory (R17). -/
  mem : Memory
  /-- The halt status; `none` is the spec's `None` (R18). -/
  halt : Option HaltCause
  /-- The step counter (R19). -/
  cycle : Nat
  deriving DecidableEq, Repr

/-- Why an operation of the machine stops with a fault. NO STEP RAISES ONE: the two exceptions of R110
are next states with `halt` written (assumption log 2). -/
inductive Fault where
  /-- The loader's word store lies out of bounds (R33, R135): "this loader failure is not the `OutOfRange`
  halt and sets no state". Raised by `loaderWrite` only. Safe: nothing is stored. -/
  | loaderOutOfRange (address : Nat)
  deriving DecidableEq, Repr

/-- Why an operation of the machine is refused. NO STEP RAISES ONE: the step is total (R84). -/
inductive Refusal where
  /-- An instruction with no meaning yet, by its mnemonic. Raised by no arm: every instruction has its
  meaning. Safe. -/
  | notModelled (mnemonic : String)
  /-- `MEM_SIZE` is outside `4 .. 2^31` (R9, decision D3, U2). Raised by `launch` only. Safe. -/
  | illegalMemSize (memSize : Nat)
  /-- The initial memory image assigns a byte outside memory (R134). Raised by `launch` only. Safe. -/
  | imageOutsideMemory
  /-- The program does not fit in memory (R135, U5). Raised by `launch` only. Safe. -/
  | programDoesNotFit (words : Nat)
  deriving DecidableEq, Repr

/-- The state after reset of a machine with `memSize` bytes of memory (R26, R130). -/
def State.resetWith (memSize : Nat) : State where
  memSize := memSize
  regs := Vector.replicate 31 0#32
  pc := Config.pcReset
  mem := []
  halt := none
  cycle := 0

/-- The state after reset at the default memory size (R9, R26). -/
def State.reset : State := State.resetWith Config.memSizeDefault

end Sys2Proof.Machine
end

