-- ==== Sys2Proof/Machine/Ops.lean ====
section
/-!
DEFINITION. The shared operations over memory, registers, the pc and the halt status
(spec/10_state.md, spec/20_memory.md, spec/40_step_cycle.md, spec/60_exceptions.md).
-/
namespace Sys2Proof.Machine

/-! ### Memory as bytes (R17, R39) -/

/-- What an address that nothing has written reads as: the reset value of every byte (R26). -/
def unlistedByte : Byte := 0#8

/-- The byte at an address. -/
def Memory.readByte : Memory → Nat → Byte
  | [], _ => unlistedByte
  | (k, b) :: m, a => if k = a then b else readByte m a

/-- Put a cell at its place in the rising order of addresses. -/
def Memory.insertCell : Memory → Nat → Byte → Memory
  | [], a, b => [(a, b)]
  | (k, c) :: m, a, b => if a < k then (a, b) :: (k, c) :: m else (k, c) :: insertCell m a b

/-- Write one byte; writing the byte an unlisted address reads as removes the entry. -/
def Memory.writeByte (m : Memory) (a : Nat) (b : Byte) : Memory :=
  let others := m.filter (fun cell => cell.1 ≠ a)
  if b = unlistedByte then others else Memory.insertCell others a b

/-- Write bytes at rising addresses from `a`. -/
def Memory.writeBytes : Memory → Nat → List Byte → Memory
  | m, _, [] => m
  | m, a, b :: bs => writeBytes (m.writeByte a b) (a + 1) bs

/-- The canonical form: addresses strictly rising, no entry equal to what an unlisted address reads as. -/
def Memory.wf (m : Memory) : Bool :=
  decide (m.Pairwise (fun c d => c.1 < d.1)) && m.all (fun cell => cell.2 ≠ unlistedByte)

/-! ### The four access primitives (R31 to R36) -/

/-- `InBounds4(a)`: all four bytes from `a` exist; over the integers, no wrap (R31). -/
abbrev InBounds4 (memSize : Nat) (a : Word) : Prop := a.toNat + 3 < memSize

/-- `FetchRead(a)`: an instruction word, big-endian (R32). Used when `InBounds4` holds. -/
def Memory.fetchRead (m : Memory) (a : Word) : Word :=
  wordBE (m.readByte a.toNat) (m.readByte (a.toNat + 1)) (m.readByte (a.toNat + 2))
    (m.readByte (a.toNat + 3))

/-- `LoaderWrite(a, w)`: the host's store of an instruction word, big-endian (R33). -/
def Memory.loaderWrite (m : Memory) (a : Word) (w : Word) : Memory :=
  m.writeBytes a.toNat (bytesBE w)

/-- `MemRead(a, 4)`: a data word, little-endian (R34). Used when `InBounds4` holds. -/
def Memory.memRead (m : Memory) (a : Word) : Word :=
  wordLE (m.readByte a.toNat) (m.readByte (a.toNat + 1)) (m.readByte (a.toNat + 2))
    (m.readByte (a.toNat + 3))

/-- `MemWrite(a, 4, v)`: a data word, little-endian (R35). Used when `InBounds4` holds. -/
def Memory.memWrite (m : Memory) (a : Word) (v : Word) : Memory :=
  m.writeBytes a.toNat (bytesLE v)

/-! ### Registers (R10, R11) -/

/-- `x[i]` in a register file; `x[0]` is the constant 0 (R11). -/
def regFileRead (regs : Vector Word 31) (i : RegIdx) : Word :=
  if h : i.val = 0 then 0#32 else regs[i.val - 1]

/-- `x[i] <- v` in a register file; a write to register 0 is accepted and discarded (R11). -/
def regFileWrite (regs : Vector Word 31) (i : RegIdx) (v : Word) : Vector Word 31 :=
  if h : i.val = 0 then regs else regs.set (i.val - 1) v

/-- `x[i]` (R10, R11). -/
def State.reg (s : State) (i : RegIdx) : Word := regFileRead s.regs i

/-- `x[i] <- v` (R11, R78). -/
def State.writeReg (s : State) (i : RegIdx) (v : Word) : State :=
  { s with regs := regFileWrite s.regs i v }

/-! ### Memory of a state -/

/-- The byte at an address below `MEM_SIZE`. -/
def State.byte (s : State) (a : Nat) : Byte := s.mem.readByte a

/-- The host's observation of one byte; nothing exists at or above `MEM_SIZE` (R7, R30, R38). -/
def State.observeByte (s : State) (a : Nat) : Option Byte :=
  if a < s.memSize then some (s.byte a) else none

/-- Store a data word, little-endian (R35, R77). -/
def State.storeWord (s : State) (ea : Word) (v : Word) : State :=
  { s with mem := s.mem.memWrite ea v }

/-! ### Fetch and the pc (R72 to R74) -/

/-- The fetch guard of R72 passes: the pc leaves room for a 4-byte fetch. -/
abbrev State.FetchInBounds (s : State) : Prop := InBounds4 s.memSize s.pc

/-- The word at the pc (R73). -/
def State.fetchWord (s : State) : Word := s.mem.fetchRead s.pc

/-- Stages 2 and 3 of R70 beside the fetch: the step counter rises by 1 (R82) and the pc by 4 (R74). -/
def State.advance (s : State) : State :=
  { s with pc := s.pc + 4#32, cycle := s.cycle + 1 }

/-- `pc <- t`, a taken branch (R95). -/
def State.setPc (s : State) (t : Word) : State := { s with pc := t }

/-! ### Taking an exception (R111, R112, R116) -/

/-- Enter a halt: the halt status takes the cause and NOTHING ELSE changes. There is no saved pc, no
saved status, no vector and no mode (R116). OutOfRange is taken before the pc moves (R111); MemoryFault
after the pc has advanced, which is not undone (R112). There is no return from a halt: only reset
clears the status (R117). -/
def State.takeHalt (s : State) (c : HaltCause) : State := { s with halt := some c }

/-- What stages 0 to 3 of a step come to (R70). -/
inductive FetchResult where
  /-- The step ends here, in the state given: the halt latch or the fetch guard (R71, R72). -/
  | stopped (t : State)
  /-- A word was fetched; the state has the pc and the step counter advanced (R73, R74, R82). -/
  | fetched (w : Word) (t : State)
  deriving DecidableEq, Repr

/-- Stages 0 to 3 of R70: a halted machine does not change (R71); a pc with no room for a fetch halts with
OutOfRange (R72, R111); otherwise the word at the pc is fetched and the pc advances (R73, R74). There
is no alignment test (R37; assumption log 10). -/
def State.fetchStages (s : State) : FetchResult :=
  match s.halt with
  | some _ => .stopped s
  | none => if s.FetchInBounds then .fetched s.fetchWord s.advance else .stopped (s.takeHalt .outOfRange)

/-- The state with an instruction word stored at the pc, big-endian, as the loader stores one (R33). Where
the pc leaves no room for a word it changes nothing. -/
def State.placeAtPc (s : State) (w : Word) : State :=
  if s.FetchInBounds then { s with mem := s.mem.loaderWrite s.pc w } else s

/-- Reset of an existing machine: every piece of state at its reset value, memory cleared, the
capacity kept (R17, R130, R131). The only way out of a halt (R117). -/
def State.resetMachine (s : State) : State := State.resetWith s.memSize

/-- The numeric code of a halt status, for tables only (R110, decision D13). -/
def haltCode : Option HaltCause → Nat
  | none => 0
  | some .outOfRange => 1
  | some .memoryFault => 2

/-! ### The schedule: what the execute stage hands on (R76) -/

/-- What the execute stage computes for one instruction (R76). -/
inductive Scheduled where
  /-- Nothing: UNIMPLEMENTED, or a BEQ not taken. -/
  | nothing
  /-- A register result: ADD, SUB, ADDI. -/
  | regWrite (i : RegIdx) (v : Word)
  /-- A data read at an in-bounds address into a register: LW. -/
  | load (i : RegIdx) (ea : Word)
  /-- A data write at an in-bounds address: SW. -/
  | store (ea : Word) (v : Word)
  /-- A new pc: a taken BEQ. -/
  | branch (target : Word)
  /-- The bounds check of an LW or SW failed. -/
  | memoryFault (ea : Word)
  deriving DecidableEq, Repr

/-- Carry out a schedule: the memory stage (R77) and then write-back (R78), or the taken branch
(R95), or the halt (R112). -/
def State.commit (s : State) : Scheduled → State
  | .nothing => s
  | .regWrite i v => s.writeReg i v
  | .load i ea => s.writeReg i (s.mem.memRead ea)
  | .store ea v => s.storeWord ea v
  | .branch target => s.setPc target
  | .memoryFault _ => s.takeHalt .memoryFault

end Sys2Proof.Machine
end

