-- ==== Sys2Proof/Machine/Operands.lean ====
section
/-!
DEFINITION. The operand forms: a register (`State.reg`), the sign-extended immediate, base plus offset,
and the branch target (spec/30_encoding.md rule R54, spec/42_load_store.md rule R90,
spec/43_branch.md rule R95).
-/
namespace Sys2Proof.Machine

/-- `sext_32(imm16)` (R54). -/
def sext32 (imm : Imm16) : Word := imm.signExtend 32

/-- The one addressing mode, `ea = (x[rs] + sext_32(imm16)) mod 2^32` (R90; decision D9, log 8). -/
def effectiveAddress (base : Word) (imm : Imm16) : Word := base + sext32 imm

/-- The target of a taken branch, from the pc already advanced past the branch (R95; decision D8). -/
def branchTarget (pcAfterIncrement : Word) (off : Imm16) : Word :=
  pcAfterIncrement + (sext32 off <<< 2)

end Sys2Proof.Machine
end

