-- ==== Sys2Proof/Machine/Flags.lean ====
section
/-!
DEFINITION. The hardware has no flags, condition codes or predicates (spec/10_state.md rule R21): there is no
flag computation, and no instruction records a carry or an overflow. The only condition anywhere is the
equality comparator of BEQ (spec/40_step_cycle.md rule R76).
-/
namespace Sys2Proof.Machine

/-- The 32-bit equality comparator: all 32 bits equal (R76, R95). -/
def equalWords (a b : Word) : Bool := a == b

end Sys2Proof.Machine
end

