-- ==== Sys2Proof/Machine/Arithmetic.lean ====
section
/-!
DEFINITION. ADD, SUB and ADDI (spec/41_arithmetic.md). Each `schedule…` is what the execute stage computes;
each `exec…` carries it out. The pc has been advanced before (`State.advance`).
-/
namespace Sys2Proof.Machine

/-- ADD in the execute stage (R85): the sum modulo 2^32; `shamt` is not used (R56). -/
def scheduleAdd (rd rs rt : RegIdx) (s : State) : Scheduled :=
  .regWrite rd (s.reg rs + s.reg rt)

/-- ADD (R85). -/
def execAdd (rd rs rt : RegIdx) (s : State) : Host.Outcome State Fault Refusal :=
  .next (s.commit (scheduleAdd rd rs rt s))

/-- SUB in the execute stage (R86): the difference modulo 2^32; `shamt` is not used (R56). -/
def scheduleSub (rd rs rt : RegIdx) (s : State) : Scheduled :=
  .regWrite rd (s.reg rs - s.reg rt)

/-- SUB (R86). -/
def execSub (rd rs rt : RegIdx) (s : State) : Host.Outcome State Fault Refusal :=
  .next (s.commit (scheduleSub rd rs rt s))

/-- ADDI in the execute stage (R87): the sum modulo 2^32, no trap. -/
def scheduleAddi (rt rs : RegIdx) (imm : Imm16) (s : State) : Scheduled :=
  .regWrite rt (s.reg rs + sext32 imm)

/-- ADDI (R87). -/
def execAddi (rt rs : RegIdx) (imm : Imm16) (s : State) : Host.Outcome State Fault Refusal :=
  .next (s.commit (scheduleAddi rt rs imm s))

end Sys2Proof.Machine
end

