-- ==== Sys2Proof/Machine/Branch.lean ====
section
/-!
DEFINITION. BEQ (spec/43_branch.md). The state's pc is already `oldPC + 4` (R74, R95).
-/
namespace Sys2Proof.Machine

/-- BEQ in the execute stage (R95). -/
def scheduleBeq (rs rt : RegIdx) (off : Imm16) (s : State) : Scheduled :=
  if equalWords (s.reg rs) (s.reg rt) then .branch (branchTarget s.pc off) else .nothing

/-- BEQ (R95). -/
def execBeq (rs rt : RegIdx) (off : Imm16) (s : State) : Host.Outcome State Fault Refusal :=
  .next (s.commit (scheduleBeq rs rt off s))

end Sys2Proof.Machine
end

