-- ==== Sys2Proof/Machine/LoadStore.lean ====
section
/-!
DEFINITION. LW and SW (spec/42_load_store.md). The bounds check is made in the execute stage, whatever the
destination register is (R90); the access follows in the memory stage (R77).
-/
namespace Sys2Proof.Machine

/-- LW in the execute stage (R90, R91): the effective address and its bounds check. -/
def scheduleLw (rt rs : RegIdx) (imm : Imm16) (s : State) : Scheduled :=
  let ea := effectiveAddress (s.reg rs) imm
  if InBounds4 s.memSize ea then .load rt ea else .memoryFault ea

/-- LW (R91). -/
def execLw (rt rs : RegIdx) (imm : Imm16) (s : State) : Host.Outcome State Fault Refusal :=
  .next (s.commit (scheduleLw rt rs imm s))

/-- SW in the execute stage (R90, R92): the effective address, its bounds check and the value stored. -/
def scheduleSw (rt rs : RegIdx) (imm : Imm16) (s : State) : Scheduled :=
  let ea := effectiveAddress (s.reg rs) imm
  if InBounds4 s.memSize ea then .store ea (s.reg rt) else .memoryFault ea

/-- SW (R92). -/
def execSw (rt rs : RegIdx) (imm : Imm16) (s : State) : Host.Outcome State Fault Refusal :=
  .next (s.commit (scheduleSw rt rs imm s))

end Sys2Proof.Machine
end

