-- ==== Sys2Proof/Machine/Unimplemented.lean ====
section
/-!
DEFINITION. UNIMPLEMENTED, the no-operation every other word decodes to (spec/44_unimplemented.md).
-/
namespace Sys2Proof.Machine

/-- UNIMPLEMENTED in the execute stage: nothing, whatever the word (R76, R100). -/
def scheduleUnimplemented : Scheduled := .nothing

/-- UNIMPLEMENTED (R100): no effect beyond the pc advance of every step. -/
def execUnimplemented (s : State) : Host.Outcome State Fault Refusal :=
  .next (s.commit scheduleUnimplemented)

end Sys2Proof.Machine
end

