-- ==== Sys2Proof/Machine/Dispatch.lean ====
section
/-!
DEFINITION. The meaning of each instruction, one arm per constructor of `Instr`, run in the state the fetch and
the pc advance leave (spec/40_step_cycle.md rule R70, stages 5 to 7).
-/
namespace Sys2Proof.Machine

def exec (i : Instr) (s : State) : Host.Outcome State Fault Refusal :=
  match i with
  | .add rd rs rt _ => Sys2Proof.Machine.execAdd rd rs rt s
  | .sub rd rs rt _ => Sys2Proof.Machine.execSub rd rs rt s
  | .addi rt rs imm => Sys2Proof.Machine.execAddi rt rs imm s
  | .lw rt rs imm => Sys2Proof.Machine.execLw rt rs imm s
  | .sw rt rs imm => Sys2Proof.Machine.execSw rt rs imm s
  | .beq rs rt off => Sys2Proof.Machine.execBeq rs rt off s
  | .unimplemented _ => Sys2Proof.Machine.execUnimplemented s

end Sys2Proof.Machine
end

