-- ==== Sys2Proof/Machine/Step.lean ====
section
/-!
DEFINITION. One step (spec/40_step_cycle.md rule R70): halt latch, fetch guard, fetch, pc advance, decode, and the
decoded instruction's own stages.
-/
namespace Sys2Proof.Machine

/-- One instruction cycle (R70): stages 0 to 3, then the decoded instruction. It always answers a next
state (R84). It is the one engine's only transition of the Machine State it owns (R6, R122). -/
def step (s : State) : Host.Outcome State Fault Refusal :=
  match s.fetchStages with
  | .stopped t => .next t
  | .fetched w t => exec (decode w) t

/-- The state with a table row's word stored where `step` fetches next. It stands for the host's load of a
program (assumption log 11). -/
def State.withFetchWord (s : State) (nbits w : Nat) : State := s.placeAtPc (tableWord nbits w)

end Sys2Proof.Machine
end

