-- ==== Sys2Proof/Machine/Instances.lean ====
section
/-!
DEFINITION. Instances of the hardware side by side (spec/60_exceptions.md rule R122): each has one hardware thread and
a Machine State that its own engine alone owns, and nothing is shared between them.
-/
namespace Sys2Proof.Machine

/-- One step of instance `k` among `n` instances: its engine reads and writes its own Machine State and no other, and
there is no inter-processor interrupt (R122). The number `k` says which engine the host calls; no step reads it,
since there is no identifier register. The list of states is the model's form (assumption log 20). -/
def stepInstance {n : Nat} (k : Fin n) (machines : Vector State n) :
    Host.Outcome (Vector State n) Fault Refusal :=
  match step machines[k] with
  | .next t => .next (machines.set k t)
  | .fault f => .fault f
  | .refused r => .refused r

end Sys2Proof.Machine
end

