-- ==== Sys2Proof/Machine/Loader.lean ====
section
/-!
DEFINITION. The host's load before the first step (spec/70_reset_and_hazards.md rules R133 to R135, decision D14).
-/
namespace Sys2Proof.Machine

/-- `store_instruction_word` (R33): big-endian, or a failure that sets no state when a byte lies out of
bounds (R135). -/
def loaderWrite (a : Nat) (w : Word) (s : State) : Host.Outcome State Fault Refusal :=
  if a + 3 < s.memSize then .next { s with mem := s.mem.writeBytes a (bytesBE w) }
  else .fault (.loaderOutOfRange a)

/-- Place program words at `a`, `a + 4`, … (R133). -/
def loadWords : Nat → List Word → State → Host.Outcome State Fault Refusal
  | _, [], s => .next s
  | a, w :: ws, s =>
    match loaderWrite a w s with
    | .next t => loadWords (a + 4) ws t
    | .fault f => .fault f
    | .refused r => .refused r

/-- Assign the bytes of an initial memory image, in order (R134). -/
def writeImage : List Host.Cell → Memory → Memory
  | [], m => m
  | (a, b) :: cells, m => writeImage cells (m.writeByte a b)

/-- The launch state: a new machine of `memSize` bytes in its reset state, the image written and then the
program at the load address. An illegal size, an image outside memory and a program that does not fit
are refused (R9, R134, R135, decisions D3 and D14). -/
def launch (memSize : Nat) (image : List Host.Cell) (program : List Word) :
    Host.Outcome State Fault Refusal :=
  if ¬ Config.LegalMemSize memSize then .refused (.illegalMemSize memSize)
  else if ¬ (∀ cell ∈ image, cell.1 < memSize) then .refused .imageOutsideMemory
  else if ¬ 4 * program.length ≤ memSize then .refused (.programDoesNotFit program.length)
  else
    let blank := State.resetWith memSize
    loadWords Config.loadAddress program { blank with mem := writeImage image blank.mem }

end Sys2Proof.Machine
end

