-- ==== Sys2Proof/Machine/Trace.lean ====
section
/-!
DEFINITION. The trace record each step produces (spec/10_state.md rule R20, spec/40_step_cycle.md rule R79): an
output, not state. It is computed from the same schedules the meanings carry out.
-/
namespace Sys2Proof.Machine

/-- The verdict of a step (R20). -/
inductive Verdict where
  | continue
  | halt (cause : HaltCause)
  deriving DecidableEq, Repr

/-- The trace record (R20). -/
structure TraceRecord where
  /-- The step counter after the step. -/
  cycle : Nat
  /-- The pc before the increment. -/
  oldPC : Word
  /-- The raw word; absent when nothing was fetched. -/
  word : Option Word
  /-- The decoded mnemonic; absent when nothing was fetched. -/
  mnemonic : Option Mnemonic
  /-- Address and value, when an SW completed. -/
  memWrite : Option (Word × Word)
  /-- Address and value, when an LW completed. -/
  memRead : Option (Word × Word)
  /-- Index and value, when ADD, SUB, ADDI or LW completed, also for index 0. -/
  regWrite : Option (RegIdx × Word)
  verdict : Verdict
  deriving DecidableEq, Repr

/-- What the execute stage schedules for an instruction (R76). -/
def schedule (i : Instr) (s : State) : Scheduled :=
  match i with
  | .add rd rs rt _ => scheduleAdd rd rs rt s
  | .sub rd rs rt _ => scheduleSub rd rs rt s
  | .addi rt rs imm => scheduleAddi rt rs imm s
  | .lw rt rs imm => scheduleLw rt rs imm s
  | .sw rt rs imm => scheduleSw rt rs imm s
  | .beq rs rt off => scheduleBeq rs rt off s
  | .unimplemented _ => scheduleUnimplemented

/-- `memWrite` of the record (R79). -/
def Scheduled.memWrite? : Scheduled → Option (Word × Word)
  | .store ea v => some (ea, v)
  | .nothing | .regWrite _ _ | .load _ _ | .branch _ | .memoryFault _ => none

/-- `memRead` of the record: the address and the data word read (R79). -/
def Scheduled.memRead? (m : Memory) : Scheduled → Option (Word × Word)
  | .load _ ea => some (ea, m.memRead ea)
  | .nothing | .regWrite _ _ | .store _ _ | .branch _ | .memoryFault _ => none

/-- `regWrite` of the record, also when the index is 0 (R20, R79). -/
def Scheduled.regWrite? (m : Memory) : Scheduled → Option (RegIdx × Word)
  | .regWrite i v => some (i, v)
  | .load i ea => some (i, m.memRead ea)
  | .nothing | .store _ _ | .branch _ | .memoryFault _ => none

/-- The verdict of a schedule (R79, R112). -/
def Scheduled.verdict : Scheduled → Verdict
  | .memoryFault _ => .halt .memoryFault
  | .nothing | .regWrite _ _ | .load _ _ | .store _ _ | .branch _ => .continue

/-- The record of a step that fetched nothing: the step counter unchanged, every optional field absent
(R20, R71, R111, decision D7). -/
def haltRecord (s : State) (c : HaltCause) : TraceRecord where
  cycle := s.cycle
  oldPC := s.pc
  word := none
  mnemonic := none
  memWrite := none
  memRead := none
  regWrite := none
  verdict := .halt c

/-- The record of a step that fetched a word (R79, R112, decision D7). -/
def fetchedRecord (s : State) : TraceRecord :=
  let w := s.fetchWord
  let i := decode w
  let sched := schedule i s.advance
  { cycle := s.advance.cycle
    oldPC := s.pc
    word := some w
    mnemonic := some i.mnemonic
    memWrite := sched.memWrite?
    memRead := sched.memRead? s.mem
    regWrite := sched.regWrite? s.mem
    verdict := sched.verdict }

/-- The trace record of the step taken from `s` (R20, R70, R79). -/
def traceRecord (s : State) : TraceRecord :=
  match s.halt with
  | some c => haltRecord s c
  | none => if s.FetchInBounds then fetchedRecord s else haltRecord s .outOfRange

/-- The host's `step` operation: the outcome and the record (R7). -/
def stepReport (s : State) : Host.Outcome State Fault Refusal × TraceRecord :=
  (step s, traceRecord s)

end Sys2Proof.Machine
end

