-- ==== Sys2Proof/Safety.lean ====
section
/-!
DEFINITION. The terms in which claims are made: the invariant of every reachable state, the states a run
reaches, and what the end of a run is (spec/70_reset_and_hazards.md rule R138). The hardware ranks
neither halt as success (decision D15), so no state is called safe or unsafe here: a claim names the final
state it wants.
-/
namespace Sys2Proof.Machine

/-- What holds at reset and after every step: a legal memory size (R9); memory in canonical form with no byte
listed outside it (R17); a pc that is a multiple of 4 (R15); and an OutOfRange halt only where the
fetch guard fails (R71: the guard "would fail again on the unchanged PC"). -/
abbrev State.Inv (s : State) : Prop :=
  Config.LegalMemSize s.memSize ∧ s.mem.wf = true ∧ (∀ cell ∈ s.mem, cell.1 < s.memSize) ∧
    s.pc.toNat % 4 = 0 ∧ (s.halt = some .outOfRange → ¬ s.FetchInBounds)

/-- The next step fetches the word `w`: the machine is not halted and the fetch guard passes. -/
abbrev State.Fetches (s : State) (w : Word) : Prop :=
  s.halt = none ∧ s.FetchInBounds ∧ s.fetchWord = w

/-- The states of runs: the launch states and what steps make of them (R138). -/
inductive Reachable : State → Prop where
  | launched {memSize : Nat} {image : List Host.Cell} {program : List Word} {s : State}
      (h : launch memSize image program = .next s) : Reachable s
  | stepped {s t : State} (hs : Reachable s) (h : step s = .next t) : Reachable t

/-- The run from `s` ends in `t` within `n` steps: `halt` is set (R138). -/
def EndsIn (s : State) (n : Nat) (t : State) : Prop :=
  Sys2Proof.core.run n s = .next t ∧ t.halt ≠ none

end Sys2Proof.Machine
end

