-- ==== Sys2Proof/Certificates/Slice0/Obligations.lean ====
section
/-!
DEFINITION. The statements for the provers. `stated` ones formalise the rule they cite; a clause that rests on a
decision of the spec (D<n>) or on a choice of the model says so in its docstring.
-/

open Sys2Proof Sys2Proof.Machine

/-! ### Encoding -/

/-- Decoding the encoding of a well-formed instruction gives it back, with every operand at every value
(R55, R61; the `shamt` operand at every value, R56). -/
def Obligations.DecodeEncodeRoundTrip : Prop :=
  ∀ i : Instr, i.wf = true → decode (encode i) = i

/-- Every word decodes to a well-formed instruction (R55: decode is total), and encoding that gives the word back:
decoding drops no bit. On words with a nonzero `shamt` and on UNIMPLEMENTED words the second clause is the model's own
choice, not a rule of the spec: `Instr` keeps the `shamt` field of ADD and SUB (assumption log 9) and the whole word of
UNIMPLEMENTED (assumption log 13). R61's encoder puts 0 in `shamt`. -/
def Obligations.EncodeDecodeRoundTrip : Prop :=
  ∀ w : Word, (decode w).wf = true ∧ encode (decode w) = w

/-- R55: the mnemonic is the row whose masked pattern the word matches, UNIMPLEMENTED where none does; no word
matches two rows; and the dispatch on the opcode value, then on the funct value. -/
def Obligations.DecodeFollowsTheOpcodeMap : Prop :=
  (∀ (w : Word) (m : Mnemonic), m ≠ .unimplemented →
    ((decode w).mnemonic = m ↔ w &&& m.matchMask.2 = m.matchMask.1)) ∧
  (∀ w : Word, (decode w).mnemonic = .unimplemented ↔
    ∀ m : Mnemonic, m ≠ .unimplemented → w &&& m.matchMask.2 ≠ m.matchMask.1) ∧
  (∀ (w : Word) (m n : Mnemonic), m ≠ .unimplemented → n ≠ .unimplemented →
    m.Matches w → n.Matches w → m = n) ∧
  (∀ w : Word, (decode w).mnemonic =
    if w.toNat / 2 ^ 26 = 0x00 then
      if w.toNat % 2 ^ 6 = 0x20 then .add
      else if w.toNat % 2 ^ 6 = 0x22 then .sub
      else .unimplemented
    else if w.toNat / 2 ^ 26 = 0x08 then .addi
    else if w.toNat / 2 ^ 26 = 0x23 then .lw
    else if w.toNat / 2 ^ 26 = 0x2B then .sw
    else if w.toNat / 2 ^ 26 = 0x04 then .beq
    else .unimplemented)

/-- R51: each field is the bits the rule names, read as a number, in every word; and the operands of the decoded
instruction are those fields. That ADD and SUB carry `shamt` as an operand (assumption log 9) and that UNIMPLEMENTED
carries its whole word (assumption log 13) are the model's choices: R51 says that no instruction uses `shamt`, R100
that UNIMPLEMENTED has no operands. -/
def Obligations.FieldsAreTheWordsBits : Prop :=
  ∀ w : Word,
    (opcodeOf w).toNat = w.toNat / 2 ^ 26 ∧
    (rsOf w).val = w.toNat / 2 ^ 21 % 2 ^ 5 ∧
    (rtOf w).val = w.toNat / 2 ^ 16 % 2 ^ 5 ∧
    (rdOf w).val = w.toNat / 2 ^ 11 % 2 ^ 5 ∧
    (shamtOf w).toNat = w.toNat / 2 ^ 6 % 2 ^ 5 ∧
    (functOf w).toNat = w.toNat % 2 ^ 6 ∧
    (imm16Of w).toNat = w.toNat % 2 ^ 16 ∧
    match decode w with
    | .add rd rs rt shamt => rd = rdOf w ∧ rs = rsOf w ∧ rt = rtOf w ∧ shamt = shamtOf w
    | .sub rd rs rt shamt => rd = rdOf w ∧ rs = rsOf w ∧ rt = rtOf w ∧ shamt = shamtOf w
    | .addi rt rs imm => rt = rtOf w ∧ rs = rsOf w ∧ imm = imm16Of w
    | .lw rt rs imm => rt = rtOf w ∧ rs = rsOf w ∧ imm = imm16Of w
    | .sw rt rs imm => rt = rtOf w ∧ rs = rsOf w ∧ imm = imm16Of w
    | .beq rs rt off => rs = rsOf w ∧ rt = rtOf w ∧ off = imm16Of w
    | .unimplemented v => v = w

/-- R61: the encoder's words as numbers. -/
def Obligations.EncodingFollowsTheFormulas : Prop :=
  (∀ rd rs rt : RegIdx, (encode (.add rd rs rt 0#5)).toNat =
    rs.val * 2 ^ 21 + rt.val * 2 ^ 16 + rd.val * 2 ^ 11 + 0x20) ∧
  (∀ rd rs rt : RegIdx, (encode (.sub rd rs rt 0#5)).toNat =
    rs.val * 2 ^ 21 + rt.val * 2 ^ 16 + rd.val * 2 ^ 11 + 0x22) ∧
  (∀ (rt rs : RegIdx) (imm : Imm16), (encode (.addi rt rs imm)).toNat =
    0x08 * 2 ^ 26 + rs.val * 2 ^ 21 + rt.val * 2 ^ 16 + imm.toNat) ∧
  (∀ (rt rs : RegIdx) (imm : Imm16), (encode (.lw rt rs imm)).toNat =
    0x23 * 2 ^ 26 + rs.val * 2 ^ 21 + rt.val * 2 ^ 16 + imm.toNat) ∧
  (∀ (rt rs : RegIdx) (imm : Imm16), (encode (.sw rt rs imm)).toNat =
    0x2B * 2 ^ 26 + rs.val * 2 ^ 21 + rt.val * 2 ^ 16 + imm.toNat) ∧
  (∀ (rs rt : RegIdx) (off : Imm16), (encode (.beq rs rt off)).toNat =
    0x04 * 2 ^ 26 + rs.val * 2 ^ 21 + rt.val * 2 ^ 16 + off.toNat)

/-- R56: two ADD or SUB words that differ only in the `shamt` field w[10:6] have the same meaning. This is the
spec's own decision D11 (assumption log 9). -/
def Obligations.ShamtIsIgnored : Prop :=
  ∀ (w v : Word), w &&& 0xFFFFF83F#32 = v &&& 0xFFFFF83F#32 →
    Mnemonic.add.Matches w ∨ Mnemonic.sub.Matches w →
    (decode v).mnemonic = (decode w).mnemonic ∧ ∀ s : State, exec (decode v) s = exec (decode w) s

/-- Words written out from the spec's encodings (95_test_vectors.md sections 1.7, 2.1 to 2.8) decode to the
instructions they stand for. -/
def Obligations.SpecWordsDecodeRight : Prop :=
  decode 0x01284820#32 = .add 9 9 8 0 ∧ decode 0x00221FE0#32 = .add 3 1 2 31 ∧
  decode 0x00642822#32 = .sub 5 3 4 0 ∧ decode 0x2108FFFF#32 = .addi 8 8 0xFFFF ∧
  decode 0x8C230000#32 = .lw 3 1 0 ∧ decode 0xAC22FFFC#32 = .sw 2 1 0xFFFC ∧
  decode 0x11000001#32 = .beq 8 0 1 ∧ decode 0x00221821#32 = .unimplemented 0x00221821 ∧
  decode 0x00000000#32 = .unimplemented 0

/-- R54: the immediate is sign-extended, never zero-extended; BEQ's offset is that value times 4. -/
def Obligations.ImmediateIsSignExtended : Prop :=
  ∀ imm : Imm16,
    sext32 imm = (if imm.getLsbD 15 then 0xFFFF0000#32 ||| imm.setWidth 32 else imm.setWidth 32) ∧
    (sext32 imm).toInt = imm.toInt ∧ (sext32 imm <<< 2).toInt = 4 * imm.toInt

/-! ### Registers -/

/-- R11: register 0 reads zero in every state; a written register other than 0 reads back exactly the value; a
write to register 0, by an instruction or by the write port, changes no register. -/
def Obligations.RegisterZeroDiscardsWrites : Prop :=
  (∀ s : State, s.reg 0 = 0#32) ∧
  (∀ (s : State) (i : RegIdx) (v : Word), i ≠ 0 → (s.writeReg i v).reg i = v) ∧
  (∀ (s : State) (v : Word) (r : RegIdx), (s.writeReg 0 v).reg r = s.reg r) ∧
  (∀ (i : Instr) (s t : State), i.dest = some 0 → exec i s = .next t →
    ∀ r : RegIdx, t.reg r = s.reg r)

/-- R12, R78: a step changes no register but the destination of the instruction it runs, and never register 0. That a
halted machine's step changes none (the conclusion `s.halt = none`) is the halt latch of R71, the spec's own decision
D5 (assumption log 3). -/
def Obligations.OnlyTheDestinationChanges : Prop :=
  ∀ (s t : State) (r : RegIdx), step s = .next t → t.reg r ≠ s.reg r →
    r ≠ 0 ∧ s.halt = none ∧ s.FetchInBounds ∧ (decode s.fetchWord).dest = some r

/-- R12: what an instruction does cannot depend on a register it does not read: two states that differ only in
such a register come to states that differ at most in that register, and not there either when the
instruction wrote it. -/
def Obligations.OnlyTheSourcesAreRead : Prop :=
  ∀ (i : Instr) (k : RegIdx) (s s' t t' : State), k ∉ i.sources →
    (∀ r : RegIdx, r ≠ k → s'.reg r = s.reg r) →
    s'.pc = s.pc → s'.mem = s.mem → s'.memSize = s.memSize → s'.halt = s.halt →
    s'.cycle = s.cycle → exec i s = .next t → exec i s' = .next t' →
    t'.pc = t.pc ∧ t'.mem = t.mem ∧ t'.memSize = t.memSize ∧ t'.halt = t.halt ∧
    t'.cycle = t.cycle ∧ (∀ r : RegIdx, r ≠ k → t'.reg r = t.reg r) ∧
    (i.dest = some k → t.halt ≠ some .memoryFault → t'.reg k = t.reg k)

/-- R14, R19, R98: no program can read the pc or the step counter: changing them changes no register, no byte and no
halt that an instruction leaves, and an instruction other than BEQ leaves the pc alone. -/
def Obligations.PcAndCycleAreNotReadable : Prop :=
  ∀ (i : Instr) (s t t' : State) (p : Word) (c : Nat),
    exec i s = .next t → exec i { s with pc := p, cycle := c } = .next t' →
    (∀ r : RegIdx, t'.reg r = t.reg r) ∧ (∀ a : Nat, t'.byte a = t.byte a) ∧ t'.halt = t.halt ∧
    t'.memSize = t.memSize ∧ t'.cycle = c ∧ (i.mnemonic ≠ .beq → t'.pc = p)

/-! ### Memory -/

/-- R32, R33: the loader's word store lays the word down most significant byte first and changes no other byte; an
instruction fetch reads the four bytes most significant first; so the fetch returns the word stored. -/
def Obligations.InstructionWordRoundTrip : Prop :=
  ∀ (m : Memory) (a w : Word),
    (m.fetchRead a).toNat = (m.readByte a.toNat).toNat * 2 ^ 24 +
      (m.readByte (a.toNat + 1)).toNat * 2 ^ 16 + (m.readByte (a.toNat + 2)).toNat * 2 ^ 8 +
      (m.readByte (a.toNat + 3)).toNat ∧
    (m.loaderWrite a w).readByte a.toNat = w.extractLsb' 24 8 ∧
    (m.loaderWrite a w).readByte (a.toNat + 1) = w.extractLsb' 16 8 ∧
    (m.loaderWrite a w).readByte (a.toNat + 2) = w.extractLsb' 8 8 ∧
    (m.loaderWrite a w).readByte (a.toNat + 3) = w.extractLsb' 0 8 ∧
    (∀ x : Nat, x < a.toNat ∨ a.toNat + 4 ≤ x →
      (m.loaderWrite a w).readByte x = m.readByte x) ∧
    (m.loaderWrite a w).fetchRead a = w

/-- R34, R35: a data store lays the word down least significant byte first and changes no other byte; a data read
takes the four bytes least significant first; so the read returns the word stored, at any address. -/
def Obligations.DataWordRoundTrip : Prop :=
  ∀ (m : Memory) (a w : Word),
    (m.memRead a).toNat = (m.readByte a.toNat).toNat +
      (m.readByte (a.toNat + 1)).toNat * 2 ^ 8 + (m.readByte (a.toNat + 2)).toNat * 2 ^ 16 +
      (m.readByte (a.toNat + 3)).toNat * 2 ^ 24 ∧
    (m.memWrite a w).readByte a.toNat = w.extractLsb' 0 8 ∧
    (m.memWrite a w).readByte (a.toNat + 1) = w.extractLsb' 8 8 ∧
    (m.memWrite a w).readByte (a.toNat + 2) = w.extractLsb' 16 8 ∧
    (m.memWrite a w).readByte (a.toNat + 3) = w.extractLsb' 24 8 ∧
    (∀ x : Nat, x < a.toNat ∨ a.toNat + 4 ≤ x →
      (m.memWrite a w).readByte x = m.readByte x) ∧
    (m.memWrite a w).memRead a = w

/-- R36: at every address, a word stored by the data path and fetched as an instruction, or placed by the loader and
read as data, is seen byte-reversed; and a data read followed by a data store of the value copies the four
bytes unchanged. -/
def Obligations.MixedAccessReversesTheBytes : Prop :=
  (∀ (m : Memory) (a w : Word), (m.memWrite a w).fetchRead a =
    w.extractLsb' 0 8 ++ w.extractLsb' 8 8 ++ w.extractLsb' 16 8 ++ w.extractLsb' 24 8) ∧
  (∀ (m : Memory) (a w : Word), (m.loaderWrite a w).memRead a =
    w.extractLsb' 0 8 ++ w.extractLsb' 8 8 ++ w.extractLsb' 16 8 ++ w.extractLsb' 24 8) ∧
  (∀ (m : Memory) (a b : Word) (k : Nat), k < 4 →
    (m.memWrite b (m.memRead a)).readByte (b.toNat + k) = m.readByte (a.toNat + k))

/-- The canonical form does its work: two memories in it that agree on every byte are the same data (assumption
log 6; the model's own form of R17). -/
def Obligations.CanonicalMemoryIsItsBytes : Prop :=
  ∀ m n : Memory, m.wf = true → n.wf = true → (∀ a : Nat, m.readByte a = n.readByte a) → m = n

/-- R31: the bounds predicate holds exactly when all four bytes exist, does not depend on reading the address as
signed or unsigned at a legal memory size, and at 4096 bytes admits the addresses up to 0xFFC. -/
def Obligations.BoundsPredicate : Prop :=
  (∀ (n : Nat) (a : Word), InBounds4 n a ↔ a.toNat + 3 < n) ∧
  (∀ (n : Nat) (a : Word), InBounds4 n a ↔ ∀ k : Nat, k < 4 → a.toNat + k < n) ∧
  (∀ (n : Nat) (a : Word), n ≤ 2 ^ 31 →
    (InBounds4 n a ↔ 0 ≤ a.toInt ∧ a.toInt + 3 < (n : Int))) ∧
  (∀ a : Word, InBounds4 4096 a ↔ a.toNat ≤ 0xFFC)

/-- R17, R39, R93: a step changes no byte but those an SW stores: the four from its effective address, which are in
bounds. That a halted machine stores nothing (the conclusion `s.halt = none`) is the halt latch of R71, the spec's own
decision D5 (assumption log 3). -/
def Obligations.OnlySwChangesMemory : Prop :=
  ∀ (s t : State) (a : Nat), step s = .next t → t.byte a ≠ s.byte a →
    s.halt = none ∧ s.FetchInBounds ∧
    ∃ (rt rs : RegIdx) (imm : Imm16), decode s.fetchWord = .sw rt rs imm ∧
      InBounds4 s.memSize (effectiveAddress (s.reg rs) imm) ∧
      (effectiveAddress (s.reg rs) imm).toNat ≤ a ∧
      a < (effectiveAddress (s.reg rs) imm).toNat + 4

/-- R46: a stored word is seen by the next fetch of its address, byte-reversed, with no fence; in particular by the
fetch of the instruction after the SW. -/
def Obligations.StoreIsSeenByTheNextFetch : Prop :=
  ∀ (s : State) (w : Word), s.Fetches w → Mnemonic.sw.Matches w →
    InBounds4 s.memSize (effectiveAddress (s.reg (rsOf w)) (imm16Of w)) →
    ∃ t : State, step s = .next t ∧
      t.mem.fetchRead (effectiveAddress (s.reg (rsOf w)) (imm16Of w)) =
        (let v := s.reg (rtOf w)
         v.extractLsb' 0 8 ++ v.extractLsb' 8 8 ++ v.extractLsb' 16 8 ++ v.extractLsb' 24 8) ∧
      (effectiveAddress (s.reg (rsOf w)) (imm16Of w) = s.pc + 4#32 →
        t.fetchWord =
          (let v := s.reg (rtOf w)
           v.extractLsb' 0 8 ++ v.extractLsb' 8 8 ++ v.extractLsb' 16 8 ++ v.extractLsb' 24 8))

/-- R43, R139: an LW from the address an SW has just stored to loads the stored value, with no instruction between. -/
def Obligations.LoadAfterStoreSeesTheValue : Prop :=
  ∀ (s : State) (rt rs rt' rs' : RegIdx) (imm imm' : Imm16), rt' ≠ 0 →
    InBounds4 s.memSize (effectiveAddress (s.reg rs) imm) →
    effectiveAddress (s.reg rs') imm' = effectiveAddress (s.reg rs) imm →
    ∃ t u : State, exec (.sw rt rs imm) s = .next t ∧ exec (.lw rt' rs' imm') t = .next u ∧
      u.reg rt' = s.reg rt

/-! ### The step -/

/-- R70, R73 to R75: when the bytes at the pc decode to an instruction, or are the bytes of a well-formed
instruction's encoding, most significant first, the step is that instruction's meaning in the state with the pc
advanced by 4 and the step counter by 1 (the counter is the spec's decision D6). -/
def Obligations.StepRunsTheDecodedInstruction : Prop :=
  ∀ (s : State) (i : Instr), s.halt = none → s.FetchInBounds →
    (decodeBytes [s.byte s.pc.toNat, s.byte (s.pc.toNat + 1), s.byte (s.pc.toNat + 2),
        s.byte (s.pc.toNat + 3)] = .ok (i, []) ∨
      i.wf = true ∧ [s.byte s.pc.toNat, s.byte (s.pc.toNat + 1), s.byte (s.pc.toNat + 2),
        s.byte (s.pc.toNat + 3)] = bytesBE (encode i)) →
    step s = exec i { s with pc := s.pc + 4#32, cycle := s.cycle + 1 }

/-- R84: every instruction in every state, and every step, answers a next state. -/
def Obligations.EveryStepAnswersANextState : Prop :=
  (∀ (i : Instr) (s : State), ∃ t : State, exec i s = .next t) ∧
  (∀ s : State, ∃ t : State, step s = .next t)

/-- R80: a step that continues carries out in full what its execute stage scheduled (R76), a register write, a load, a
store or a branch, and changes nothing else; a step that halts changes no register and no byte. The three cases are the
rows of R80's table, the counter and the halt status among its columns. -/
def Obligations.StepCommitsAllOrNothing : Prop :=
  ∀ s t : State, s.halt = none → step s = .next t →
    (t.halt = none →
      (t.pc = s.pc + 4#32 ∨ ∃ (rs rt : RegIdx) (off : Imm16),
        decode s.fetchWord = .beq rs rt off ∧ t.pc = branchTarget (s.pc + 4#32) off) ∧
      (∀ target : Word, schedule (decode s.fetchWord) s.advance = .branch target →
        t.pc = target) ∧
      (∀ (r : RegIdx) (v : Word), schedule (decode s.fetchWord) s.advance = .regWrite r v →
        r ≠ 0 → t.reg r = v) ∧
      (∀ (r : RegIdx) (ea : Word), schedule (decode s.fetchWord) s.advance = .load r ea →
        r ≠ 0 → t.reg r = s.mem.memRead ea) ∧
      (∀ ea v : Word, schedule (decode s.fetchWord) s.advance = .store ea v →
        ∀ k : Nat, k < 4 → t.byte (ea.toNat + k) = BitVec.ofNat 8 (v.toNat / 2 ^ (8 * k))) ∧
      (∀ r : RegIdx, t.reg r ≠ s.reg r → (decode s.fetchWord).dest = some r) ∧
      (∀ a : Nat, t.byte a ≠ s.byte a → ∃ (rt rs : RegIdx) (imm : Imm16),
        decode s.fetchWord = .sw rt rs imm ∧
        (effectiveAddress (s.reg rs) imm).toNat ≤ a ∧
        a < (effectiveAddress (s.reg rs) imm).toNat + 4) ∧
      t.cycle = s.cycle + 1) ∧
    (t.halt = some .outOfRange →
      t.pc = s.pc ∧ (∀ r : RegIdx, t.reg r = s.reg r) ∧ (∀ a : Nat, t.byte a = s.byte a) ∧
      t.cycle = s.cycle) ∧
    (t.halt = some .memoryFault →
      t.pc = s.pc + 4#32 ∧ (∀ r : RegIdx, t.reg r = s.reg r) ∧
      (∀ a : Nat, t.byte a = s.byte a) ∧ t.cycle = s.cycle + 1)

/-- R14, R74, R95: the pc after a step, for every word and every outcome. -/
def Obligations.PcAfterEveryStep : Prop :=
  ∀ s t : State, s.halt = none → step s = .next t →
    t.pc =
      if s.memSize ≤ s.pc.toNat + 3 then s.pc
      else
        match decode s.fetchWord with
        | .beq rs rt off =>
          if s.reg rs = s.reg rt then BitVec.ofInt 32 (s.pc.toNat + 4 + 4 * off.toInt)
          else s.pc + 4#32
        | _ => s.pc + 4#32

/-- R16: at a legal memory size the pc advance of a step that passes the fetch guard never wraps. -/
def Obligations.PcAdvanceNeverWraps : Prop :=
  ∀ s : State, Config.LegalMemSize s.memSize → s.FetchInBounds →
    (s.pc + 4#32).toNat = s.pc.toNat + 4 ∧ s.advance.pc = s.pc + 4#32

/-- R82: the step counter rises by 1 exactly in the steps that pass the halt latch and the fetch guard. The
counter is the spec's own decision D6 (assumption log 4). -/
def Obligations.CycleCountsTheFetches : Prop :=
  ∀ s t : State, step s = .next t →
    t.cycle = if s.halt = none ∧ s.FetchInBounds then s.cycle + 1 else s.cycle

/-- R58, R100: zeroed memory executes as a run of no-operations: from a pc with nothing but zero bytes from it on,
`n` steps advance the pc by 4 each and change nothing else; and where no room for another word is left, the
next step ends the run with OutOfRange. The counter is decision D6, the latch D5. -/
def Obligations.ZeroedMemoryRunsToOutOfRange : Prop :=
  ∀ (n : Nat) (s : State), s.halt = none → s.memSize ≤ 2 ^ 31 →
    (∀ a : Nat, s.pc.toNat ≤ a → s.byte a = 0#8) → s.pc.toNat + 4 * n ≤ s.memSize →
    core.run n s =
      .next { s with pc := s.pc + BitVec.ofNat 32 (4 * n), cycle := s.cycle + n } ∧
    (s.memSize < s.pc.toNat + 4 * n + 4 →
      EndsIn s (n + 1) { s with pc := s.pc + BitVec.ofNat 32 (4 * n), cycle := s.cycle + n,
                                halt := some .outOfRange })

/-- R20, R79: the trace record tells what the step did: the counter, the old pc, the word and mnemonic, the verdict,
every register and all of memory after the step, the value an LW read, and which accesses are present. Which
fields a halting step fills is the spec's decision D7 (assumption log 12), and so is a `regWrite` to index 0; that a halted
machine's step changes nothing and reports its halt is the latch of R71, decision D5 (assumption log 3). -/
def Obligations.TraceRecordTellsTheStep : Prop :=
  ∀ s t : State, step s = .next t →
    (traceRecord s).cycle = t.cycle ∧ (traceRecord s).oldPC = s.pc ∧
    (traceRecord s).word = (if s.halt = none ∧ s.FetchInBounds then some s.fetchWord else none) ∧
    (traceRecord s).mnemonic = (traceRecord s).word.map (fun w => (decode w).mnemonic) ∧
    (traceRecord s).verdict =
      (match t.halt with | none => .continue | some c => .halt c) ∧
    (∀ q : RegIdx, t.reg q =
      match (traceRecord s).regWrite with
      | some (i, v) => if q = i ∧ q ≠ 0 then v else s.reg q
      | none => s.reg q) ∧
    t.mem = (match (traceRecord s).memWrite with
      | some (a, v) => s.mem.memWrite a v
      | none => s.mem) ∧
    (∀ a v : Word, (traceRecord s).memRead = some (a, v) →
      InBounds4 s.memSize a ∧ v = s.mem.memRead a) ∧
    ((traceRecord s).memWrite ≠ none ↔
      (traceRecord s).mnemonic = some .sw ∧ (traceRecord s).verdict = .continue) ∧
    ((traceRecord s).memRead ≠ none ↔
      (traceRecord s).mnemonic = some .lw ∧ (traceRecord s).verdict = .continue) ∧
    ((traceRecord s).regWrite ≠ none ↔
      ((traceRecord s).mnemonic = some .add ∨ (traceRecord s).mnemonic = some .sub ∨
        (traceRecord s).mnemonic = some .addi ∨ (traceRecord s).mnemonic = some .lw) ∧
      (traceRecord s).verdict = .continue)

/-! ### Halts -/

/-- R72, R111: a pc that leaves no room for a 4-byte fetch halts with OutOfRange, sets `halt` and changes nothing
else; the record names no word. -/
def Obligations.OutOfRangeHaltChangesOnlyHalt : Prop :=
  ∀ s : State, s.halt = none → s.memSize ≤ s.pc.toNat + 3 →
    step s = .next { s with halt := some .outOfRange } ∧
    traceRecord s = { cycle := s.cycle, oldPC := s.pc, word := none, mnemonic := none,
                      memWrite := none, memRead := none, regWrite := none,
                      verdict := .halt .outOfRange }

/-- R112: an LW or SW whose four bytes do not all exist halts with MemoryFault: `halt` is set, the pc stays
advanced and the counter counted, and no register and no byte changes; the record names the word. -/
def Obligations.MemoryFaultHaltKeepsRegistersAndMemory : Prop :=
  ∀ (s : State) (w : Word), s.Fetches w → Mnemonic.lw.Matches w ∨ Mnemonic.sw.Matches w →
    s.memSize ≤ (effectiveAddress (s.reg (rsOf w)) (imm16Of w)).toNat + 3 →
    step s = .next { s with halt := some .memoryFault, pc := s.pc + 4#32, cycle := s.cycle + 1 } ∧
    traceRecord s = { cycle := s.cycle + 1, oldPC := s.pc, word := some w,
                      mnemonic := some (if Mnemonic.lw.Matches w then .lw else .sw),
                      memWrite := none, memRead := none, regWrite := none,
                      verdict := .halt .memoryFault }

/-- R71, R18: a halted machine stays as it is, through any number of steps, and reports its halt. The latch is the
spec's own decision D5 (assumption log 3). -/
def Obligations.HaltedMachineNeverChanges : Prop :=
  ∀ (s : State) (c : HaltCause), s.halt = some c →
    (∀ n : Nat, core.run n s = .next s) ∧
    traceRecord s = { cycle := s.cycle, oldPC := s.pc, word := none, mnemonic := none,
                      memWrite := none, memRead := none, regWrite := none, verdict := .halt c }

/-- R110, R113, R115: a step of a running machine halts exactly for the two causes, each exactly under its condition;
no other word, overflow, misalignment or destination halts. -/
def Obligations.ExactlyTwoExceptions : Prop :=
  ∀ s t : State, s.halt = none → step s = .next t →
    (t.halt = some .outOfRange ↔ s.memSize ≤ s.pc.toNat + 3) ∧
    (t.halt = some .memoryFault ↔ s.pc.toNat + 3 < s.memSize ∧
      ∃ (rt rs : RegIdx) (imm : Imm16),
        (decode s.fetchWord = .lw rt rs imm ∨ decode s.fetchWord = .sw rt rs imm) ∧
        s.memSize ≤ (effectiveAddress (s.reg rs) imm).toNat + 3)

/-! ### Instances side by side -/

/-- R122: instances share no state. Stepping one instance always answers, is the step of its own Machine State, and
leaves every other instance as it was; its outcome depends on that state alone, not on which instance it is (there is
no identifier register) or what stands beside it; and the steps of two instances come to the same in either order. The
list of states is the model's form (assumption log 20). -/
def Obligations.InstancesShareNoState : Prop :=
  ∀ (n : Nat) (machines : Vector State n) (k : Fin n),
    (∃ after : Vector State n, stepInstance k machines = .next after ∧
      step machines[k] = .next after[k] ∧ ∀ j : Fin n, j ≠ k → after[j] = machines[j]) ∧
    (∀ (m : Nat) (others othersAfter : Vector State m) (after : Vector State n) (l : Fin m),
      others[l] = machines[k] → stepInstance k machines = .next after →
      stepInstance l others = .next othersAfter → othersAfter[l] = after[k]) ∧
    (∀ j : Fin n, j ≠ k → ∃ afterK afterJ both : Vector State n,
      stepInstance k machines = .next afterK ∧ stepInstance j afterK = .next both ∧
      stepInstance j machines = .next afterJ ∧ stepInstance k afterJ = .next both)

/-! ### Each instruction as one step: the whole rule -/

/-- R85: ADD, for every word of its encoding (the `shamt` bits at any value). -/
def Obligations.AddRule : Prop :=
  ∀ (s : State) (w : Word), s.Fetches w → w &&& 0xFC00003F#32 = 0x00000020#32 →
    ∃ t : State, step s = .next t ∧
      (∀ r : RegIdx, t.reg r =
        if r = rdOf w ∧ r ≠ 0 then
          BitVec.ofNat 32 ((s.reg (rsOf w)).toNat + (s.reg (rtOf w)).toNat)
        else s.reg r) ∧
      t.pc = s.pc + 4#32 ∧ (∀ a : Nat, t.byte a = s.byte a) ∧ t.halt = none ∧
      t.memSize = s.memSize ∧
      (traceRecord s).regWrite =
        some (rdOf w, BitVec.ofNat 32 ((s.reg (rsOf w)).toNat + (s.reg (rtOf w)).toNat))

/-- R86: SUB, for every word of its encoding (the `shamt` bits at any value). The `regWrite` clause is not R86's: it is
R79's, and that a write to index 0 is reported too is the spec's decision D7 (assumption log 12). -/
def Obligations.SubRule : Prop :=
  ∀ (s : State) (w : Word), s.Fetches w → w &&& 0xFC00003F#32 = 0x00000022#32 →
    ∃ t : State, step s = .next t ∧
      (∀ r : RegIdx, t.reg r =
        if r = rdOf w ∧ r ≠ 0 then
          BitVec.ofInt 32 ((s.reg (rsOf w)).toNat - (s.reg (rtOf w)).toNat : Int)
        else s.reg r) ∧
      t.pc = s.pc + 4#32 ∧ (∀ a : Nat, t.byte a = s.byte a) ∧ t.halt = none ∧
      t.memSize = s.memSize ∧
      (traceRecord s).regWrite =
        some (rdOf w, BitVec.ofInt 32 ((s.reg (rsOf w)).toNat - (s.reg (rtOf w)).toNat : Int))

/-- R87: ADDI, for every word of its encoding. That the sum wraps with no trap is R87's own inference, not the source's
statement (assumption log 17, DEDUCED). The `regWrite` clause is R79's, and that a write to index 0 is reported too is
the spec's decision D7 (assumption log 12). -/
def Obligations.AddiRule : Prop :=
  ∀ (s : State) (w : Word), s.Fetches w → w &&& 0xFC000000#32 = 0x20000000#32 →
    ∃ t : State, step s = .next t ∧
      (∀ r : RegIdx, t.reg r =
        if r = rtOf w ∧ r ≠ 0 then
          BitVec.ofInt 32 ((s.reg (rsOf w)).toNat + (imm16Of w).toInt)
        else s.reg r) ∧
      t.pc = s.pc + 4#32 ∧ (∀ a : Nat, t.byte a = s.byte a) ∧ t.halt = none ∧
      t.memSize = s.memSize ∧
      (traceRecord s).regWrite =
        some (rtOf w, BitVec.ofInt 32 ((s.reg (rsOf w)).toNat + (imm16Of w).toInt))

/-- R91: LW, for every word of its encoding: in bounds it loads the little-endian word, misaligned or not; out of
bounds it raises MemoryFault, whatever the destination. -/
def Obligations.LwRule : Prop :=
  ∀ (s : State) (w ea v : Word), s.Fetches w → w &&& 0xFC000000#32 = 0x8C000000#32 →
    ea = effectiveAddress (s.reg (rsOf w)) (imm16Of w) →
    v = s.byte (ea.toNat + 3) ++ s.byte (ea.toNat + 2) ++ s.byte (ea.toNat + 1) ++
      s.byte ea.toNat →
    (ea.toNat + 3 < s.memSize →
      ∃ t : State, step s = .next t ∧
        (∀ r : RegIdx, t.reg r = if r = rtOf w ∧ r ≠ 0 then v else s.reg r) ∧
        t.pc = s.pc + 4#32 ∧ (∀ a : Nat, t.byte a = s.byte a) ∧ t.halt = none ∧
        t.memSize = s.memSize ∧ (traceRecord s).memRead = some (ea, v) ∧
        (traceRecord s).regWrite = some (rtOf w, v)) ∧
    (s.memSize ≤ ea.toNat + 3 →
      ∃ t : State, step s = .next t ∧ t.halt = some .memoryFault ∧ t.pc = s.pc + 4#32 ∧
        (∀ r : RegIdx, t.reg r = s.reg r) ∧ (∀ a : Nat, t.byte a = s.byte a) ∧
        t.memSize = s.memSize)

/-- R92: SW, for every word of its encoding: in bounds it stores the four bytes little-endian, misaligned or not,
and no other byte changes; out of bounds it raises MemoryFault and no byte changes. -/
def Obligations.SwRule : Prop :=
  ∀ (s : State) (w ea : Word), s.Fetches w → w &&& 0xFC000000#32 = 0xAC000000#32 →
    ea = effectiveAddress (s.reg (rsOf w)) (imm16Of w) →
    (ea.toNat + 3 < s.memSize →
      ∃ t : State, step s = .next t ∧
        t.byte ea.toNat = (s.reg (rtOf w)).extractLsb' 0 8 ∧
        t.byte (ea.toNat + 1) = (s.reg (rtOf w)).extractLsb' 8 8 ∧
        t.byte (ea.toNat + 2) = (s.reg (rtOf w)).extractLsb' 16 8 ∧
        t.byte (ea.toNat + 3) = (s.reg (rtOf w)).extractLsb' 24 8 ∧
        (∀ a : Nat, a < ea.toNat ∨ ea.toNat + 4 ≤ a → t.byte a = s.byte a) ∧
        (∀ r : RegIdx, t.reg r = s.reg r) ∧ t.pc = s.pc + 4#32 ∧ t.halt = none ∧
        t.memSize = s.memSize ∧ (traceRecord s).memWrite = some (ea, s.reg (rtOf w))) ∧
    (s.memSize ≤ ea.toNat + 3 →
      ∃ t : State, step s = .next t ∧ t.halt = some .memoryFault ∧ t.pc = s.pc + 4#32 ∧
        (∀ r : RegIdx, t.reg r = s.reg r) ∧ (∀ a : Nat, t.byte a = s.byte a) ∧
        t.memSize = s.memSize)

/-- R95: BEQ, for every word of its encoding: equal operands take the branch, relative to the pc already advanced;
unequal ones fall through; nothing else changes, and the step itself never halts, whatever the target. -/
def Obligations.BeqRule : Prop :=
  ∀ (s : State) (w : Word), s.Fetches w → w &&& 0xFC000000#32 = 0x10000000#32 →
    ∃ t : State, step s = .next t ∧
      (s.reg (rsOf w) = s.reg (rtOf w) →
        t.pc = BitVec.ofInt 32 (s.pc.toNat + 4 + 4 * (imm16Of w).toInt)) ∧
      (s.reg (rsOf w) ≠ s.reg (rtOf w) → t.pc = s.pc + 4#32) ∧
      (∀ r : RegIdx, t.reg r = s.reg r) ∧ (∀ a : Nat, t.byte a = s.byte a) ∧ t.halt = none ∧
      t.memSize = s.memSize

/-- R100: every word that is none of the six, named by its opcode and funct values, advances the pc and does nothing
else; it never halts; the record carries the raw word and the mnemonic UNIMPLEMENTED. -/
def Obligations.UnimplementedRule : Prop :=
  ∀ (s : State) (w : Word), s.Fetches w →
    (¬ (w.toNat / 2 ^ 26 = 0x00 ∨ w.toNat / 2 ^ 26 = 0x04 ∨ w.toNat / 2 ^ 26 = 0x08 ∨
        w.toNat / 2 ^ 26 = 0x23 ∨ w.toNat / 2 ^ 26 = 0x2B) ∨
      w.toNat / 2 ^ 26 = 0x00 ∧ w.toNat % 2 ^ 6 ≠ 0x20 ∧ w.toNat % 2 ^ 6 ≠ 0x22) →
    ∃ t : State, step s = .next t ∧ t.pc = s.pc + 4#32 ∧ (∀ r : RegIdx, t.reg r = s.reg r) ∧
      (∀ a : Nat, t.byte a = s.byte a) ∧ t.halt = none ∧ t.memSize = s.memSize ∧
      t.cycle = s.cycle + 1 ∧
      traceRecord s = { cycle := s.cycle + 1, oldPC := s.pc, word := some w,
                        mnemonic := some .unimplemented, memWrite := none, memRead := none,
                        regWrite := none, verdict := .continue }

/-! ### Each instruction's own meaning: where it completes, its result and its frame -/

/-- ADD, SUB and ADDI complete in every state: the result, and everything else unchanged (R85, R86, R87). That ADDI's
sum wraps with no trap is R87's own inference, not the source's statement (assumption log 17, DEDUCED). -/
def Obligations.ArithmeticCompletes : Prop :=
  ∀ s : State,
    (∀ (rd rs rt : RegIdx) (shamt : Shamt), ∃ t : State, exec (.add rd rs rt shamt) s = .next t ∧
      (∀ r : RegIdx, t.reg r =
        if r = rd ∧ r ≠ 0 then BitVec.ofNat 32 ((s.reg rs).toNat + (s.reg rt).toNat)
        else s.reg r) ∧
      t.pc = s.pc ∧ (∀ a : Nat, t.byte a = s.byte a) ∧ t.halt = s.halt ∧ t.cycle = s.cycle ∧
      t.memSize = s.memSize) ∧
    (∀ (rd rs rt : RegIdx) (shamt : Shamt), ∃ t : State, exec (.sub rd rs rt shamt) s = .next t ∧
      (∀ r : RegIdx, t.reg r =
        if r = rd ∧ r ≠ 0 then BitVec.ofInt 32 ((s.reg rs).toNat - (s.reg rt).toNat : Int)
        else s.reg r) ∧
      t.pc = s.pc ∧ (∀ a : Nat, t.byte a = s.byte a) ∧ t.halt = s.halt ∧ t.cycle = s.cycle ∧
      t.memSize = s.memSize) ∧
    (∀ (rt rs : RegIdx) (imm : Imm16), ∃ t : State, exec (.addi rt rs imm) s = .next t ∧
      (∀ r : RegIdx, t.reg r =
        if r = rt ∧ r ≠ 0 then BitVec.ofInt 32 ((s.reg rs).toNat + imm.toInt) else s.reg r) ∧
      t.pc = s.pc ∧ (∀ a : Nat, t.byte a = s.byte a) ∧ t.halt = s.halt ∧ t.cycle = s.cycle ∧
      t.memSize = s.memSize)

/-- LW completes at every in-bounds address: the little-endian word, and everything else unchanged (R91). -/
def Obligations.LwCompletes : Prop :=
  ∀ (s : State) (rt rs : RegIdx) (imm : Imm16),
    InBounds4 s.memSize (effectiveAddress (s.reg rs) imm) →
    ∃ t : State, exec (.lw rt rs imm) s = .next t ∧
      (∀ r : RegIdx, t.reg r =
        if r = rt ∧ r ≠ 0 then
          BitVec.ofNat 32
            ((s.byte (effectiveAddress (s.reg rs) imm).toNat).toNat +
             (s.byte ((effectiveAddress (s.reg rs) imm).toNat + 1)).toNat * 2 ^ 8 +
             (s.byte ((effectiveAddress (s.reg rs) imm).toNat + 2)).toNat * 2 ^ 16 +
             (s.byte ((effectiveAddress (s.reg rs) imm).toNat + 3)).toNat * 2 ^ 24)
        else s.reg r) ∧
      t.pc = s.pc ∧ (∀ a : Nat, t.byte a = s.byte a) ∧ t.halt = s.halt ∧ t.cycle = s.cycle ∧
      t.memSize = s.memSize

/-- SW completes at every in-bounds address: the four bytes, and everything else unchanged (R92). -/
def Obligations.SwCompletes : Prop :=
  ∀ (s : State) (rt rs : RegIdx) (imm : Imm16),
    InBounds4 s.memSize (effectiveAddress (s.reg rs) imm) →
    ∃ t : State, exec (.sw rt rs imm) s = .next t ∧
      (∀ k : Nat, k < 4 → t.byte ((effectiveAddress (s.reg rs) imm).toNat + k) =
        BitVec.ofNat 8 ((s.reg rt).toNat / 2 ^ (8 * k))) ∧
      (∀ a : Nat, a < (effectiveAddress (s.reg rs) imm).toNat ∨
        (effectiveAddress (s.reg rs) imm).toNat + 4 ≤ a → t.byte a = s.byte a) ∧
      (∀ r : RegIdx, t.reg r = s.reg r) ∧ t.pc = s.pc ∧ t.halt = s.halt ∧ t.cycle = s.cycle ∧
      t.memSize = s.memSize

/-- Where LW and SW trap instead: out of bounds, with `halt` set and nothing else changed (R112). -/
def Obligations.LwSwTrapOutOfBounds : Prop :=
  ∀ (s : State) (rt rs : RegIdx) (imm : Imm16),
    s.memSize ≤ (effectiveAddress (s.reg rs) imm).toNat + 3 →
    exec (.lw rt rs imm) s = .next { s with halt := some .memoryFault } ∧
    exec (.sw rt rs imm) s = .next { s with halt := some .memoryFault }

/-- BEQ completes in every state: the pc, and everything else unchanged (R95; the state's pc is `oldPC + 4`). -/
def Obligations.BeqCompletes : Prop :=
  ∀ (s : State) (rs rt : RegIdx) (off : Imm16),
    ∃ t : State, exec (.beq rs rt off) s = .next t ∧
      t.pc = (if s.reg rs = s.reg rt then BitVec.ofInt 32 (s.pc.toNat + 4 * off.toInt)
        else s.pc) ∧
      (∀ r : RegIdx, t.reg r = s.reg r) ∧ (∀ a : Nat, t.byte a = s.byte a) ∧ t.halt = s.halt ∧
      t.cycle = s.cycle ∧ t.memSize = s.memSize

/-- UNIMPLEMENTED completes in every state and changes nothing (R100; the pc has been advanced before). -/
def Obligations.UnimplementedCompletes : Prop :=
  ∀ (s : State) (w : Word), exec (.unimplemented w) s = .next s

/-- R88: ADD, SUB, ADDI, the effective address, the branch target and BEQ's comparison come out the same whether
registers are read as signed or as unsigned. -/
def Obligations.SignedAndUnsignedAgree : Prop :=
  (∀ (s : State) (rd rs rt : RegIdx) (shamt : Shamt), rd ≠ 0 →
    ∃ t u : State, exec (.add rd rs rt shamt) s = .next t ∧ exec (.sub rd rs rt shamt) s = .next u ∧
      t.reg rd = BitVec.ofInt 32 ((s.reg rs).toInt + (s.reg rt).toInt) ∧
      t.reg rd = BitVec.ofInt 32 ((s.reg rs).toNat + (s.reg rt).toNat) ∧
      u.reg rd = BitVec.ofInt 32 ((s.reg rs).toInt - (s.reg rt).toInt) ∧
      u.reg rd = BitVec.ofInt 32 ((s.reg rs).toNat - (s.reg rt).toNat)) ∧
  (∀ (s : State) (rt rs : RegIdx) (imm : Imm16), rt ≠ 0 →
    ∃ t : State, exec (.addi rt rs imm) s = .next t ∧
      t.reg rt = BitVec.ofInt 32 ((s.reg rs).toInt + imm.toInt) ∧
      t.reg rt = BitVec.ofInt 32 ((s.reg rs).toNat + imm.toInt)) ∧
  (∀ (b : Word) (imm : Imm16),
    effectiveAddress b imm = BitVec.ofInt 32 (b.toInt + imm.toInt) ∧
    effectiveAddress b imm = BitVec.ofInt 32 (b.toNat + imm.toInt)) ∧
  (∀ (p : Word) (off : Imm16),
    branchTarget p off = BitVec.ofInt 32 (p.toInt + 4 * off.toInt) ∧
    branchTarget p off = BitVec.ofInt 32 (p.toNat + 4 * off.toInt)) ∧
  (∀ a b : Word, (equalWords a b = true ↔ a.toNat = b.toNat) ∧
    (equalWords a b = true ↔ a.toInt = b.toInt))

/-- R97: no misaligned branch target can be formed from an aligned pc. -/
def Obligations.BranchTargetsAreAligned : Prop :=
  ∀ (p : Word) (off : Imm16), p.toNat % 4 = 0 → (branchTarget p off).toNat % 4 = 0

/-- R95's corner cases: with equal operands an offset of -1 branches to the BEQ itself, and with an offset of 0 a
taken and a not taken branch both fall through. -/
def Obligations.BranchOffsetCorners : Prop :=
  ∀ (s : State) (w : Word), s.Fetches w → Mnemonic.beq.Matches w →
    ∃ t : State, step s = .next t ∧
      (s.reg (rsOf w) = s.reg (rtOf w) → imm16Of w = 0xFFFF#16 → t.pc = s.pc) ∧
      (imm16Of w = 0#16 → t.pc = s.pc + 4#32)

/-! ### Reset, loading and the invariant -/

/-- R26, R130: the state after reset, at every memory size; and the first step from it, with nothing loaded, runs an
UNIMPLEMENTED zero word. The pc, the halt status and the counter at reset are the spec's decisions D4, D5, D6
(assumption log 3, 4, 5). -/
def Obligations.ResetValues : Prop :=
  (∀ n : Nat, (∀ r : RegIdx, (State.resetWith n).reg r = 0#32) ∧
    (∀ a : Nat, (State.resetWith n).byte a = 0#8) ∧ (State.resetWith n).pc = 0#32 ∧
    (State.resetWith n).halt = none ∧ (State.resetWith n).cycle = 0 ∧
    (State.resetWith n).memSize = n) ∧
  State.reset = State.resetWith 4096 ∧
  (∀ s : State, s.resetMachine = State.resetWith s.memSize) ∧
  (∀ n : Nat, 4 ≤ n → step (State.resetWith n) =
    .next { State.resetWith n with pc := 4#32, cycle := 1 })

/-- The state after reset meets the invariant, at every legal memory size. -/
def Obligations.ResetMeetsTheInvariant : Prop :=
  State.reset.Inv ∧ ∀ n : Nat, Config.LegalMemSize n → (State.resetWith n).Inv

/-- Every step keeps the invariant: the memory size legal, memory canonical and inside its size, the pc a multiple
of 4 (R15), an OutOfRange halt only at a pc that fails the guard (R71). That a halted machine's step changes nothing is the latch,
the spec's decision D5 (assumption log 3). -/
def Obligations.StepKeepsTheInvariant : Prop :=
  ∀ s t : State, s.Inv → step s = .next t → t.Inv

/-- Every launch state meets the invariant, whatever the image and the program. -/
def Obligations.LaunchMeetsTheInvariant : Prop :=
  ∀ (n : Nat) (image : List Host.Cell) (program : List Word) (s : State),
    launch n image program = .next s → s.Inv

/-- R15: in every state a run reaches, from any launch through any number of steps, the invariant holds: in particular
the pc is a multiple of 4. That no host move intervenes is the spec's decision D14 (assumption log 14). -/
def Obligations.ReachableStatesMeetTheInvariant : Prop :=
  ∀ s : State, Reachable s → s.Inv ∧ ∃ k : Nat, s.pc.toNat = 4 * k

/-- R133: the loader places word `i` of the program at `4i .. 4i+3`, most significant byte first; a byte above the
program that the image does not set keeps its reset value 0. That the program wins where the image overlaps it (the
image is written first, the program after it) is the spec's decision D14 (assumption log 11), not R133's words. -/
def Obligations.LaunchPlacesTheProgram : Prop :=
  ∀ (n : Nat) (image : List Host.Cell) (program : List Word) (s : State),
    launch n image program = .next s →
    (∀ (i : Nat) (h : i < program.length),
      s.byte (4 * i) = program[i].extractLsb' 24 8 ∧
      s.byte (4 * i + 1) = program[i].extractLsb' 16 8 ∧
      s.byte (4 * i + 2) = program[i].extractLsb' 8 8 ∧
      s.byte (4 * i + 3) = program[i].extractLsb' 0 8) ∧
    (∀ a : Nat, 4 * program.length ≤ a → (∀ cell ∈ image, cell.1 ≠ a) → s.byte a = 0#8)

/-- R134: a byte above the program holds the last value the initial memory image assigns to it, and 0 where it
assigns none. The form of the image is the spec's decision D14 (assumption log 11). -/
def Obligations.LaunchWritesTheImage : Prop :=
  ∀ (n : Nat) (image : List Host.Cell) (program : List Word) (s : State),
    launch n image program = .next s → ∀ a : Nat, 4 * program.length ≤ a →
      s.byte a = (((image.reverse.find? (fun cell => cell.1 = a)).map Prod.snd).getD 0#8)

/-- R9, R134, R135: a launch succeeds exactly when the memory size is legal, the image lies inside memory and the
program fits, and then registers, pc, halt and counter are at their reset values. The conditions are the
spec's decisions D3 and D14 (assumption log 11), the reset pc D4. -/
def Obligations.LaunchSucceedsExactlyWhenItFits : Prop :=
  ∀ (n : Nat) (image : List Host.Cell) (program : List Word),
    ((∃ s : State, launch n image program = .next s) ↔
      (4 ≤ n ∧ n ≤ 2 ^ 31) ∧ (∀ cell ∈ image, cell.1 < n) ∧ 4 * program.length ≤ n) ∧
    (∀ s : State, launch n image program = .next s →
      s.memSize = n ∧ (∀ r : RegIdx, s.reg r = 0#32) ∧ s.pc = 0#32 ∧ s.halt = none ∧ s.cycle = 0)
end

