-- ==== Sys2Proof/Laws/Bytes.lean ====
section
/-!
SUPPORT. Words and their bytes (spec/20_memory.md rules R32 to R35): a word read from its own bytes is the word, and
the bytes of a word read from bytes are those bytes.
-/
namespace Sys2Proof

/-- Little-endian reading is big-endian reading of the bytes in the other order. -/
theorem wordLE_eq_wordBE (b0 b1 b2 b3 : Byte) : wordLE b0 b1 b2 b3 = wordBE b3 b2 b1 b0 := rfl

/-- A word read big-endian, as a number. -/
theorem toNat_wordBE (b0 b1 b2 b3 : Byte) :
    (wordBE b0 b1 b2 b3).toNat =
      b0.toNat * 2 ^ 24 + b1.toNat * 2 ^ 16 + b2.toNat * 2 ^ 8 + b3.toNat := by
  have := b0.isLt
  have := b1.isLt
  have := b2.isLt
  have := b3.isLt
  unfold wordBE
  rw [BitVec.toNat_append, BitVec.toNat_append, BitVec.toNat_append,
    ← Nat.shiftLeft_add_eq_or_of_lt (by omega), ← Nat.shiftLeft_add_eq_or_of_lt (by omega),
    ← Nat.shiftLeft_add_eq_or_of_lt (by omega)]
  simp only [Nat.shiftLeft_eq]
  omega

/-- A word read big-endian from its bytes, most significant first, is the word. -/
theorem wordBE_extract (w : Word) :
    wordBE (w.extractLsb' 24 8) (w.extractLsb' 16 8) (w.extractLsb' 8 8) (w.extractLsb' 0 8) = w := by
  apply BitVec.eq_of_toNat_eq
  rw [toNat_wordBE]
  simp [Nat.shiftRight_eq_div_pow]
  omega

/-- The bytes of a word read big-endian. -/
theorem bytesBE_wordBE (b0 b1 b2 b3 : Byte) : bytesBE (wordBE b0 b1 b2 b3) = [b0, b1, b2, b3] := by
  have h := toNat_wordBE b0 b1 b2 b3
  have := b0.isLt
  have := b1.isLt
  have := b2.isLt
  have := b3.isLt
  simp only [bytesBE, List.cons.injEq, and_true]
  refine ⟨?_, ?_, ?_, ?_⟩ <;> apply BitVec.eq_of_toNat_eq <;>
    simp only [BitVec.extractLsb'_toNat, Nat.shiftRight_eq_div_pow, h] <;> omega

/-- The bytes of a word read little-endian. -/
theorem bytesLE_wordLE (b0 b1 b2 b3 : Byte) : bytesLE (wordLE b0 b1 b2 b3) = [b0, b1, b2, b3] := by
  have h := bytesBE_wordBE b3 b2 b1 b0
  simp only [bytesBE, List.cons.injEq, and_true] at h
  simp [bytesLE, wordLE_eq_wordBE, h]

end Sys2Proof
end

