-- ==== Sys2Proof/Laws/Encoding.lean ====
section
/-!
SUPPORT. The fields of the words the encoder builds (spec/30_encoding.md rules R51, R61): each field is what was
put there.
-/
namespace Sys2Proof

@[simp] theorem regOfField_fieldOfReg (r : RegIdx) : regOfField (fieldOfReg r) = r := rfl
@[simp] theorem fieldOfReg_regOfField (f : BitVec 5) : fieldOfReg (regOfField f) = f := rfl

section R
variable (funct : BitVec 6) (rd rs rt : RegIdx) (shamt : Shamt)

@[simp] theorem opcodeOf_encR : opcodeOf (encR funct rd rs rt shamt) = 0x00#6 := by
  unfold opcodeOf encR
  ext i hi
  interval_cases i <;> simp

@[simp] theorem functOf_encR : functOf (encR funct rd rs rt shamt) = funct := by
  unfold functOf encR
  ext i hi
  interval_cases i <;> simp

@[simp] theorem shamtOf_encR : shamtOf (encR funct rd rs rt shamt) = shamt := by
  unfold shamtOf encR
  ext i hi
  interval_cases i <;> simp

@[simp] theorem rdOf_encR : rdOf (encR funct rd rs rt shamt) = rd := by
  refine congrArg regOfField (a₂ := fieldOfReg rd) ?_
  unfold encR
  ext i hi
  interval_cases i <;> simp

@[simp] theorem rsOf_encR : rsOf (encR funct rd rs rt shamt) = rs := by
  refine congrArg regOfField (a₂ := fieldOfReg rs) ?_
  unfold encR
  ext i hi
  interval_cases i <;> simp

@[simp] theorem rtOf_encR : rtOf (encR funct rd rs rt shamt) = rt := by
  refine congrArg regOfField (a₂ := fieldOfReg rt) ?_
  unfold encR
  ext i hi
  interval_cases i <;> simp

end R

section I
variable (opcode : BitVec 6) (rs rt : RegIdx) (imm : Imm16)

@[simp] theorem opcodeOf_encI : opcodeOf (encI opcode rs rt imm) = opcode := by
  unfold opcodeOf encI
  ext i hi
  interval_cases i <;> simp

@[simp] theorem rsOf_encI : rsOf (encI opcode rs rt imm) = rs := by
  refine congrArg regOfField (a₂ := fieldOfReg rs) ?_
  unfold encI
  ext i hi
  interval_cases i <;> simp

@[simp] theorem rtOf_encI : rtOf (encI opcode rs rt imm) = rt := by
  refine congrArg regOfField (a₂ := fieldOfReg rt) ?_
  unfold encI
  ext i hi
  interval_cases i <;> simp

@[simp] theorem imm16Of_encI : imm16Of (encI opcode rs rt imm) = imm := by
  unfold imm16Of encI
  ext i hi
  interval_cases i <;> simp

end I

/-! ### The opcode map: a row's match and mask against the fields they test (R55) -/

theorem matches_add (w : Word) :
    Mnemonic.add.Matches w ↔ opcodeOf w = 0x00#6 ∧ functOf w = 0x20#6 := by
  simp only [Mnemonic.Matches, Mnemonic.matchMask, opcodeOf, functOf, BitVec.eq_of_getLsbD_eq_iff,
    Nat.forall_lt_succ_left, Nat.not_lt_zero, BitVec.getLsbD_and, BitVec.getLsbD_extractLsb']
  simp
  tauto

theorem matches_sub (w : Word) :
    Mnemonic.sub.Matches w ↔ opcodeOf w = 0x00#6 ∧ functOf w = 0x22#6 := by
  simp only [Mnemonic.Matches, Mnemonic.matchMask, opcodeOf, functOf, BitVec.eq_of_getLsbD_eq_iff,
    Nat.forall_lt_succ_left, Nat.not_lt_zero, BitVec.getLsbD_and, BitVec.getLsbD_extractLsb']
  simp
  tauto

theorem matches_addi (w : Word) : Mnemonic.addi.Matches w ↔ opcodeOf w = 0x08#6 := by
  simp only [Mnemonic.Matches, Mnemonic.matchMask, opcodeOf, BitVec.eq_of_getLsbD_eq_iff,
    Nat.forall_lt_succ_left, Nat.not_lt_zero, BitVec.getLsbD_and, BitVec.getLsbD_extractLsb']
  simp

theorem matches_lw (w : Word) : Mnemonic.lw.Matches w ↔ opcodeOf w = 0x23#6 := by
  simp only [Mnemonic.Matches, Mnemonic.matchMask, opcodeOf, BitVec.eq_of_getLsbD_eq_iff,
    Nat.forall_lt_succ_left, Nat.not_lt_zero, BitVec.getLsbD_and, BitVec.getLsbD_extractLsb']
  simp

theorem matches_sw (w : Word) : Mnemonic.sw.Matches w ↔ opcodeOf w = 0x2B#6 := by
  simp only [Mnemonic.Matches, Mnemonic.matchMask, opcodeOf, BitVec.eq_of_getLsbD_eq_iff,
    Nat.forall_lt_succ_left, Nat.not_lt_zero, BitVec.getLsbD_and, BitVec.getLsbD_extractLsb']
  simp

theorem matches_beq (w : Word) : Mnemonic.beq.Matches w ↔ opcodeOf w = 0x04#6 := by
  simp only [Mnemonic.Matches, Mnemonic.matchMask, opcodeOf, BitVec.eq_of_getLsbD_eq_iff,
    Nat.forall_lt_succ_left, Nat.not_lt_zero, BitVec.getLsbD_and, BitVec.getLsbD_extractLsb']
  simp

theorem matches_unimplemented (w : Word) : Mnemonic.unimplemented.Matches w := by
  simp [Mnemonic.Matches, Mnemonic.matchMask]

theorem decode_of_matches_add {w : Word} (h : Mnemonic.add.Matches w) :
    decode w = .add (rdOf w) (rsOf w) (rtOf w) (shamtOf w) := by
  simp [decode, (matches_add w).mp h]

theorem decode_of_matches_sub {w : Word} (h : Mnemonic.sub.Matches w) :
    decode w = .sub (rdOf w) (rsOf w) (rtOf w) (shamtOf w) := by
  simp [decode, (matches_sub w).mp h]

theorem decode_of_matches_addi {w : Word} (h : Mnemonic.addi.Matches w) :
    decode w = .addi (rtOf w) (rsOf w) (imm16Of w) := by
  simp [decode, (matches_addi w).mp h]

theorem decode_of_matches_lw {w : Word} (h : Mnemonic.lw.Matches w) :
    decode w = .lw (rtOf w) (rsOf w) (imm16Of w) := by
  simp [decode, (matches_lw w).mp h]

theorem decode_of_matches_sw {w : Word} (h : Mnemonic.sw.Matches w) :
    decode w = .sw (rtOf w) (rsOf w) (imm16Of w) := by
  simp [decode, (matches_sw w).mp h]

theorem decode_of_matches_beq {w : Word} (h : Mnemonic.beq.Matches w) :
    decode w = .beq (rsOf w) (rtOf w) (imm16Of w) := by
  simp [decode, (matches_beq w).mp h]

/-- The check of UNIMPLEMENTED words in terms of the fields (R100). -/
theorem isUnimplementedWord_iff (w : Word) :
    isUnimplementedWord w = true ↔
      (opcodeOf w ≠ 0x00#6 ∧ opcodeOf w ≠ 0x04#6 ∧ opcodeOf w ≠ 0x08#6 ∧ opcodeOf w ≠ 0x23#6 ∧
        opcodeOf w ≠ 0x2B#6) ∨
      (opcodeOf w = 0x00#6 ∧ functOf w ≠ 0x20#6 ∧ functOf w ≠ 0x22#6) := by
  simp [isUnimplementedWord, opcodeOf, functOf]

end Sys2Proof
end

