-- ==== Sys2Proof/Laws/State.lean ====
section
/-!
SUPPORT. One lemma per field per state update, so that no proof unfolds a record update.
-/
namespace Sys2Proof.Machine

@[simp] theorem State.writeReg_memSize (s : State) (i : RegIdx) (v : Word) :
    (s.writeReg i v).memSize = s.memSize := rfl
@[simp] theorem State.writeReg_pc (s : State) (i : RegIdx) (v : Word) :
    (s.writeReg i v).pc = s.pc := rfl
@[simp] theorem State.writeReg_mem (s : State) (i : RegIdx) (v : Word) :
    (s.writeReg i v).mem = s.mem := rfl
@[simp] theorem State.writeReg_halt (s : State) (i : RegIdx) (v : Word) :
    (s.writeReg i v).halt = s.halt := rfl
@[simp] theorem State.writeReg_cycle (s : State) (i : RegIdx) (v : Word) :
    (s.writeReg i v).cycle = s.cycle := rfl

@[simp] theorem State.storeWord_memSize (s : State) (a v : Word) :
    (s.storeWord a v).memSize = s.memSize := rfl
@[simp] theorem State.storeWord_regs (s : State) (a v : Word) :
    (s.storeWord a v).regs = s.regs := rfl
@[simp] theorem State.storeWord_pc (s : State) (a v : Word) : (s.storeWord a v).pc = s.pc := rfl
@[simp] theorem State.storeWord_mem (s : State) (a v : Word) :
    (s.storeWord a v).mem = s.mem.memWrite a v := rfl
@[simp] theorem State.storeWord_halt (s : State) (a v : Word) :
    (s.storeWord a v).halt = s.halt := rfl
@[simp] theorem State.storeWord_cycle (s : State) (a v : Word) :
    (s.storeWord a v).cycle = s.cycle := rfl

@[simp] theorem State.advance_memSize (s : State) : s.advance.memSize = s.memSize := rfl
@[simp] theorem State.advance_regs (s : State) : s.advance.regs = s.regs := rfl
@[simp] theorem State.advance_pc (s : State) : s.advance.pc = s.pc + 4#32 := rfl
@[simp] theorem State.advance_mem (s : State) : s.advance.mem = s.mem := rfl
@[simp] theorem State.advance_halt (s : State) : s.advance.halt = s.halt := rfl
@[simp] theorem State.advance_cycle (s : State) : s.advance.cycle = s.cycle + 1 := rfl

@[simp] theorem State.setPc_memSize (s : State) (t : Word) : (s.setPc t).memSize = s.memSize := rfl
@[simp] theorem State.setPc_regs (s : State) (t : Word) : (s.setPc t).regs = s.regs := rfl
@[simp] theorem State.setPc_pc (s : State) (t : Word) : (s.setPc t).pc = t := rfl
@[simp] theorem State.setPc_mem (s : State) (t : Word) : (s.setPc t).mem = s.mem := rfl
@[simp] theorem State.setPc_halt (s : State) (t : Word) : (s.setPc t).halt = s.halt := rfl
@[simp] theorem State.setPc_cycle (s : State) (t : Word) : (s.setPc t).cycle = s.cycle := rfl

@[simp] theorem State.takeHalt_memSize (s : State) (c : HaltCause) :
    (s.takeHalt c).memSize = s.memSize := rfl
@[simp] theorem State.takeHalt_regs (s : State) (c : HaltCause) :
    (s.takeHalt c).regs = s.regs := rfl
@[simp] theorem State.takeHalt_pc (s : State) (c : HaltCause) : (s.takeHalt c).pc = s.pc := rfl
@[simp] theorem State.takeHalt_mem (s : State) (c : HaltCause) : (s.takeHalt c).mem = s.mem := rfl
@[simp] theorem State.takeHalt_halt (s : State) (c : HaltCause) :
    (s.takeHalt c).halt = some c := rfl
@[simp] theorem State.takeHalt_cycle (s : State) (c : HaltCause) :
    (s.takeHalt c).cycle = s.cycle := rfl

@[simp] theorem State.resetWith_memSize (n : Nat) : (State.resetWith n).memSize = n := rfl
@[simp] theorem State.resetWith_pc (n : Nat) : (State.resetWith n).pc = 0#32 := rfl
@[simp] theorem State.resetWith_mem (n : Nat) : (State.resetWith n).mem = [] := rfl
@[simp] theorem State.resetWith_halt (n : Nat) : (State.resetWith n).halt = none := rfl
@[simp] theorem State.resetWith_cycle (n : Nat) : (State.resetWith n).cycle = 0 := rfl

end Sys2Proof.Machine
end

