-- ==== Sys2Proof/Laws/Registers.lean ====
section
/-!
SUPPORT. The register file: reads after writes, and which updates leave every register alone.
-/
namespace Sys2Proof.Machine

/-- Register 0 reads zero in every register file (R11). -/
@[simp] theorem regFileRead_zero (regs : Vector Word 31) : regFileRead regs 0 = 0#32 := rfl

/-- Reading a register after a write: the value written, unless the register is another one or
register 0 (R11). -/
theorem regFileRead_write (regs : Vector Word 31) (i j : RegIdx) (v : Word) :
    regFileRead (regFileWrite regs i v) j =
      if j = i ∧ j ≠ 0 then v else regFileRead regs j := by
  unfold regFileRead regFileWrite
  by_cases hj : j.val = 0
  · have : j = 0 := Fin.ext hj
    simp [this]
  · have hj0 : j ≠ 0 := fun h => hj (by simp [h])
    by_cases hi : i.val = 0
    · have : i = 0 := Fin.ext hi
      simp [this, hj0]
    · by_cases hij : j = i
      · subst hij; simp [hj, hj0]
      · have : ¬ (i.val - 1 = j.val - 1) := fun h => hij (Fin.ext (by omega))
        simp [hj, hi, hij, this]

/-- `x[0]` reads zero in every state (R11). -/
@[simp] theorem State.reg_zero (s : State) : s.reg 0 = 0#32 := rfl

/-- Reading a register after a register write (R11). -/
theorem State.reg_writeReg (s : State) (i j : RegIdx) (v : Word) :
    (s.writeReg i v).reg j = if j = i ∧ j ≠ 0 then v else s.reg j :=
  regFileRead_write s.regs i j v

@[simp] theorem State.reg_storeWord (s : State) (a v : Word) (j : RegIdx) :
    (s.storeWord a v).reg j = s.reg j := rfl
@[simp] theorem State.reg_advance (s : State) (j : RegIdx) : s.advance.reg j = s.reg j := rfl
@[simp] theorem State.reg_setPc (s : State) (t : Word) (j : RegIdx) :
    (s.setPc t).reg j = s.reg j := rfl
@[simp] theorem State.reg_takeHalt (s : State) (c : HaltCause) (j : RegIdx) :
    (s.takeHalt c).reg j = s.reg j := rfl

/-- Every register reads zero after reset (R26). -/
@[simp] theorem State.reg_resetWith (n : Nat) (j : RegIdx) : (State.resetWith n).reg j = 0#32 := by
  simp [State.reg, regFileRead, State.resetWith]

end Sys2Proof.Machine
end

