-- ==== Sys2Proof/Laws/Memory.lean ====
section
/-!
SUPPORT. Memory as bytes: a read after a write, and the canonical form that every write keeps.
-/
namespace Sys2Proof.Machine

namespace MemoryLaws

theorem readByte_filter_ne (m : Memory) (a x : Nat) :
    Memory.readByte (m.filter (fun cell => cell.1 ≠ a)) x =
      if x = a then unlistedByte else Memory.readByte m x := by
  induction m with
  | nil => simp [Memory.readByte]
  | cons c m ih =>
    obtain ⟨k, b⟩ := c
    by_cases hk : k = a
    · subst hk
      have : List.filter (fun cell : Host.Cell => decide (cell.1 ≠ k)) ((k, b) :: m) =
          List.filter (fun cell => decide (cell.1 ≠ k)) m := by simp
      rw [this, ih]
      by_cases hx : x = k
      · simp [hx]
      · simp [hx, Memory.readByte, Ne.symm hx]
    · have : List.filter (fun cell : Host.Cell => decide (cell.1 ≠ a)) ((k, b) :: m) =
          (k, b) :: List.filter (fun cell => decide (cell.1 ≠ a)) m := by simp [hk]
      rw [this]
      simp only [Memory.readByte, ih]
      by_cases hx : k = x
      · simp [hx, show x ≠ a from hx ▸ hk]
      · simp [hx]

theorem readByte_insertCell (m : Memory) (a x : Nat) (b : Byte) (h : ∀ c ∈ m, c.1 ≠ a) :
    Memory.readByte (Memory.insertCell m a b) x = if x = a then b else Memory.readByte m x := by
  induction m with
  | nil => simp [Memory.insertCell, Memory.readByte, eq_comm]
  | cons c m ih =>
    obtain ⟨k, d⟩ := c
    have hk : k ≠ a := h (k, d) (by simp)
    have ih := ih (fun c hc => h c (by simp [hc]))
    simp only [Memory.insertCell]
    split
    · simp only [Memory.readByte, eq_comm]
    · simp only [Memory.readByte, ih]
      by_cases hx : k = x
      · simp [hx, show x ≠ a from hx ▸ hk]
      · simp [hx]

theorem mem_insertCell (m : Memory) (a : Nat) (b : Byte) (c : Host.Cell) :
    c ∈ Memory.insertCell m a b ↔ c = (a, b) ∨ c ∈ m := by
  induction m with
  | nil => simp [Memory.insertCell]
  | cons d m ih =>
    simp only [Memory.insertCell]
    split
    · simp
    · simp only [List.mem_cons, ih]; tauto

theorem pairwise_insertCell (m : Memory) (a : Nat) (b : Byte)
    (hm : m.Pairwise (fun c d => c.1 < d.1)) (h : ∀ c ∈ m, c.1 ≠ a) :
    (Memory.insertCell m a b).Pairwise (fun c d => c.1 < d.1) := by
  induction m with
  | nil => simp [Memory.insertCell]
  | cons d m ih =>
    obtain ⟨k, e⟩ := d
    have hk : k ≠ a := h (k, e) (by simp)
    obtain ⟨hlt, hm'⟩ := List.pairwise_cons.mp hm
    simp only [Memory.insertCell]
    split
    · rename_i hak
      refine List.pairwise_cons.mpr ⟨?_, hm⟩
      intro c hc
      rcases List.mem_cons.mp hc with rfl | hc
      · exact hak
      · exact hak.trans (hlt c hc)
    · refine List.pairwise_cons.mpr ⟨?_, ih hm' (fun c hc => h c (by simp [hc]))⟩
      intro c hc
      rcases (mem_insertCell m a b c).mp hc with rfl | hc
      · simp only; omega
      · exact hlt c hc

end MemoryLaws

/-- The canonical form, as propositions. -/
theorem Memory.wf_iff (m : Memory) :
    m.wf = true ↔ m.Pairwise (fun c d => c.1 < d.1) ∧ ∀ c ∈ m, c.2 ≠ unlistedByte := by
  simp [Memory.wf]

@[simp] theorem Memory.readByte_nil (a : Nat) : Memory.readByte [] a = unlistedByte := rfl

@[simp] theorem Memory.wf_nil : Memory.wf [] = true := rfl

/-- Reading a byte after a byte write: the byte written at that address, the old byte at every other. -/
theorem Memory.readByte_writeByte (m : Memory) (a x : Nat) (b : Byte) :
    (m.writeByte a b).readByte x = if x = a then b else m.readByte x := by
  unfold Memory.writeByte
  simp only
  split
  · rename_i hb
    rw [MemoryLaws.readByte_filter_ne, hb]
  · rw [MemoryLaws.readByte_insertCell _ _ _ _ (by simp), MemoryLaws.readByte_filter_ne]
    split <;> simp_all

/-- A byte write keeps the canonical form. -/
theorem Memory.wf_writeByte (m : Memory) (a : Nat) (b : Byte) (h : m.wf = true) :
    (m.writeByte a b).wf = true := by
  rw [Memory.wf_iff] at h
  have hf : (m.filter (fun cell => cell.1 ≠ a)).Pairwise (fun c d => c.1 < d.1) := h.1.filter _
  unfold Memory.writeByte
  simp only
  split
  · exact (Memory.wf_iff _).mpr ⟨hf, fun c hc => h.2 c (List.mem_filter.mp hc).1⟩
  · rename_i hb
    refine (Memory.wf_iff _).mpr ⟨MemoryLaws.pairwise_insertCell _ _ _ hf (by simp), ?_⟩
    intro c hc
    rcases (MemoryLaws.mem_insertCell _ _ _ _).mp hc with rfl | hc
    · exact hb
    · exact h.2 c (List.mem_filter.mp hc).1

/-- A byte write lists no address but its own that was not listed before. -/
theorem Memory.mem_writeByte (m : Memory) (a : Nat) (b : Byte) (c : Host.Cell)
    (h : c ∈ m.writeByte a b) : c.1 = a ∨ c ∈ m := by
  unfold Memory.writeByte at h
  simp only at h
  split at h
  · exact .inr (List.mem_filter.mp h).1
  · rcases (MemoryLaws.mem_insertCell _ _ _ _).mp h with rfl | h
    · exact .inl rfl
    · exact .inr (List.mem_filter.mp h).1

/-- Reading a byte after writing bytes at rising addresses. -/
theorem Memory.readByte_writeBytes (m : Memory) (a x : Nat) (bs : List Byte) :
    (m.writeBytes a bs).readByte x =
      if h : a ≤ x ∧ x - a < bs.length then bs[x - a] else m.readByte x := by
  induction bs generalizing m a with
  | nil => simp [Memory.writeBytes]
  | cons b bs ih =>
    simp only [Memory.writeBytes, ih, Memory.readByte_writeByte, List.length_cons]
    by_cases hxa : x = a
    · subst hxa; simp
    · by_cases hlt : a + 1 ≤ x
      · obtain ⟨k, rfl⟩ : ∃ k, x = a + 1 + k := ⟨x - (a + 1), by omega⟩
        have h1 : a + 1 + k - a = k + 1 := by omega
        simp [h1, show a ≤ a + 1 + k by omega]
        split <;> simp_all
      · have : ¬ a ≤ x := by omega
        simp [hxa, hlt, this]

/-- Reading a byte after writing four bytes, one case per byte. -/
theorem Memory.readByte_writeBytes4 (m : Memory) (a x : Nat) (b0 b1 b2 b3 : Byte) :
    (m.writeBytes a [b0, b1, b2, b3]).readByte x =
      if x = a then b0 else if x = a + 1 then b1 else if x = a + 2 then b2
      else if x = a + 3 then b3 else m.readByte x := by
  simp only [Memory.writeBytes, Memory.readByte_writeByte]
  split_ifs <;> first | rfl | omega

/-- Writing bytes keeps the canonical form. -/
theorem Memory.wf_writeBytes (m : Memory) (a : Nat) (bs : List Byte) (h : m.wf = true) :
    (m.writeBytes a bs).wf = true := by
  induction bs generalizing m a with
  | nil => exact h
  | cons b bs ih => exact ih _ _ (m.wf_writeByte a b h)

/-- Writing bytes lists no address outside the bytes written that was not listed before. -/
theorem Memory.mem_writeBytes (m : Memory) (a : Nat) (bs : List Byte) (c : Host.Cell)
    (h : c ∈ m.writeBytes a bs) : (a ≤ c.1 ∧ c.1 < a + bs.length) ∨ c ∈ m := by
  induction bs generalizing m a with
  | nil => exact .inr h
  | cons b bs ih =>
    rcases ih _ _ h with h | h
    · left; simp only [List.length_cons]; omega
    · rcases m.mem_writeByte a b c h with h | h
      · left; simp only [List.length_cons]; omega
      · exact .inr h

/-- A data word store keeps the canonical form. -/
theorem Memory.wf_memWrite (m : Memory) (a v : Word) (h : m.wf = true) :
    (m.memWrite a v).wf = true := m.wf_writeBytes _ _ h

/-- The loader's word store keeps the canonical form. -/
theorem Memory.wf_loaderWrite (m : Memory) (a w : Word) (h : m.wf = true) :
    (m.loaderWrite a w).wf = true := m.wf_writeBytes _ _ h

@[simp] theorem length_bytesLE (w : Word) : (bytesLE w).length = 4 := rfl
@[simp] theorem length_bytesBE (w : Word) : (bytesBE w).length = 4 := rfl

@[simp] theorem State.byte_writeReg (s : State) (i : RegIdx) (v : Word) (a : Nat) :
    (s.writeReg i v).byte a = s.byte a := rfl
@[simp] theorem State.byte_advance (s : State) (a : Nat) : s.advance.byte a = s.byte a := rfl
@[simp] theorem State.byte_setPc (s : State) (t : Word) (a : Nat) :
    (s.setPc t).byte a = s.byte a := rfl
@[simp] theorem State.byte_takeHalt (s : State) (c : HaltCause) (a : Nat) :
    (s.takeHalt c).byte a = s.byte a := rfl
@[simp] theorem State.byte_resetWith (n a : Nat) : (State.resetWith n).byte a = 0#8 := rfl

/-- Reading a byte after a data word store: one of the word's four bytes, least significant first, or the
old byte. -/
theorem State.byte_storeWord (s : State) (ea v : Word) (x : Nat) :
    (s.storeWord ea v).byte x =
      if h : ea.toNat ≤ x ∧ x - ea.toNat < (bytesLE v).length then (bytesLE v)[x - ea.toNat]
      else s.byte x :=
  s.mem.readByte_writeBytes _ _ _

end Sys2Proof.Machine
end

