-- ==== Sys2Proof/Laws/Loader.lean ====
section
/-!
SUPPORT. The loader's operations: each keeps the canonical form of memory, and a word store changes memory only.
-/
namespace Sys2Proof.Machine

/-- Writing an image keeps the canonical form. -/
theorem wf_writeImage (image : List Host.Cell) (m : Memory) (h : m.wf = true) :
    (writeImage image m).wf = true := by
  induction image generalizing m with
  | nil => exact h
  | cons c image ih => exact ih _ (m.wf_writeByte c.1 c.2 h)

/-- Everything the loader's word store can do: in bounds, store the four bytes; otherwise fail. -/
theorem loaderWrite_cases (a : Nat) (w : Word) (s : State) :
    (a + 3 < s.memSize ∧
      loaderWrite a w s = .next { s with mem := s.mem.writeBytes a (bytesBE w) }) ∨
    (s.memSize ≤ a + 3 ∧ loaderWrite a w s = .fault (.loaderOutOfRange a)) := by
  by_cases h : a + 3 < s.memSize
  · exact .inl ⟨h, if_pos h⟩
  · exact .inr ⟨Nat.not_lt.mp h, if_neg h⟩

/-- A loader's word store that succeeds keeps the canonical form. -/
theorem wf_of_loaderWrite {a : Nat} {w : Word} {s t : State} (h : loaderWrite a w s = .next t)
    (hs : s.mem.wf = true) : t.mem.wf = true := by
  rcases loaderWrite_cases a w s with ⟨_, h'⟩ | ⟨_, h'⟩
  · rw [h', Host.Outcome.next.injEq] at h
    rw [← h]
    exact s.mem.wf_writeBytes _ _ hs
  · rw [h'] at h
    cases h

/-- Placing a word at the pc keeps the canonical form. -/
theorem State.wf_placeAtPc (s : State) (w : Word) (h : s.mem.wf = true) :
    (s.placeAtPc w).mem.wf = true := by
  unfold State.placeAtPc
  split
  · exact s.mem.wf_loaderWrite _ _ h
  · exact h

end Sys2Proof.Machine
end

