-- ==== Sys2Proof/Laws/PerInstr.lean ====
section
/-!
SUPPORT. Statements about every instruction as syntax, one lemma per constructor.
-/
namespace Sys2Proof.Laws.OpcodeRow

/-- The word of a well-formed instruction matches its own row of the opcode map, and no other row of the
six (R55). -/
def Statement (i : Instr) : Prop :=
  i.wf = true → i.mnemonic.Matches (encode i) ∧
    ∀ m : Mnemonic, m ≠ .unimplemented → m.Matches (encode i) → m = i.mnemonic

theorem add (rd rs rt : RegIdx) (shamt : Shamt) : Statement (.add rd rs rt shamt) := by
  intro _
  refine ⟨by simp [Instr.mnemonic, encode, matches_add], ?_⟩
  intro m hm h
  cases m <;> simp [encode, matches_sub, matches_addi, matches_lw, matches_sw, matches_beq,
    Instr.mnemonic] at hm h ⊢

theorem sub (rd rs rt : RegIdx) (shamt : Shamt) : Statement (.sub rd rs rt shamt) := by
  intro _
  refine ⟨by simp [Instr.mnemonic, encode, matches_sub], ?_⟩
  intro m hm h
  cases m <;> simp [encode, matches_add, matches_addi, matches_lw, matches_sw, matches_beq,
    Instr.mnemonic] at hm h ⊢

theorem addi (rt rs : RegIdx) (imm : Imm16) : Statement (.addi rt rs imm) := by
  intro _
  refine ⟨by simp [Instr.mnemonic, encode, matches_addi], ?_⟩
  intro m hm h
  cases m <;> simp [encode, matches_add, matches_sub, matches_lw, matches_sw, matches_beq,
    Instr.mnemonic] at hm h ⊢

theorem lw (rt rs : RegIdx) (imm : Imm16) : Statement (.lw rt rs imm) := by
  intro _
  refine ⟨by simp [Instr.mnemonic, encode, matches_lw], ?_⟩
  intro m hm h
  cases m <;> simp [encode, matches_add, matches_sub, matches_addi, matches_sw, matches_beq,
    Instr.mnemonic] at hm h ⊢

theorem sw (rt rs : RegIdx) (imm : Imm16) : Statement (.sw rt rs imm) := by
  intro _
  refine ⟨by simp [Instr.mnemonic, encode, matches_sw], ?_⟩
  intro m hm h
  cases m <;> simp [encode, matches_add, matches_sub, matches_addi, matches_lw, matches_beq,
    Instr.mnemonic] at hm h ⊢

theorem beq (rs rt : RegIdx) (off : Imm16) : Statement (.beq rs rt off) := by
  intro _
  refine ⟨by simp [Instr.mnemonic, encode, matches_beq], ?_⟩
  intro m hm h
  cases m <;> simp [encode, matches_add, matches_sub, matches_addi, matches_lw, matches_sw,
    Instr.mnemonic] at hm h ⊢

theorem unimplemented (w : Word) : Statement (.unimplemented w) := by
  intro hwf
  refine ⟨matches_unimplemented w, ?_⟩
  intro m hm h
  have hw := (isUnimplementedWord_iff w).mp hwf
  exfalso
  cases m <;> simp only [encode, matches_add, matches_sub, matches_addi, matches_lw, matches_sw,
    matches_beq, ne_eq, not_true_eq_false] at hm h <;> simp [h] at hw

end Sys2Proof.Laws.OpcodeRow
end

