-- ==== Sys2Proof/Laws/Step.lean ====
section
/-!
SUPPORT. What an instruction and a step can do, said once: every meaning carries out the schedule its execute stage
computes, a schedule is one of six, and a step is one of three.
-/
namespace Sys2Proof.Machine

/-- Every instruction's meaning carries out its schedule. -/
theorem exec_eq_commit_schedule (i : Instr) (s : State) :
    exec i s = .next (s.commit (schedule i s)) := by
  cases i <;> rfl

/-- What LW schedules. -/
theorem schedule_lw (rt rs : RegIdx) (imm : Imm16) (s : State) :
    schedule (.lw rt rs imm) s =
      if InBounds4 s.memSize (effectiveAddress (s.reg rs) imm) then
        .load rt (effectiveAddress (s.reg rs) imm)
      else .memoryFault (effectiveAddress (s.reg rs) imm) := rfl

/-- What SW schedules. -/
theorem schedule_sw (rt rs : RegIdx) (imm : Imm16) (s : State) :
    schedule (.sw rt rs imm) s =
      if InBounds4 s.memSize (effectiveAddress (s.reg rs) imm) then
        .store (effectiveAddress (s.reg rs) imm) (s.reg rt)
      else .memoryFault (effectiveAddress (s.reg rs) imm) := rfl

/-- In bounds LW schedules the read; `h` may be stated of any state with the same size and base. -/
theorem schedule_lw_of_inBounds {rt rs : RegIdx} {imm : Imm16} {s : State}
    (h : InBounds4 s.memSize (effectiveAddress (s.reg rs) imm)) :
    schedule (.lw rt rs imm) s = .load rt (effectiveAddress (s.reg rs) imm) :=
  if_pos h

/-- Out of bounds LW schedules the fault. -/
theorem schedule_lw_of_not_inBounds {rt rs : RegIdx} {imm : Imm16} {s : State}
    (h : ¬ InBounds4 s.memSize (effectiveAddress (s.reg rs) imm)) :
    schedule (.lw rt rs imm) s = .memoryFault (effectiveAddress (s.reg rs) imm) :=
  if_neg h

/-- In bounds SW schedules the store. -/
theorem schedule_sw_of_inBounds {rt rs : RegIdx} {imm : Imm16} {s : State}
    (h : InBounds4 s.memSize (effectiveAddress (s.reg rs) imm)) :
    schedule (.sw rt rs imm) s = .store (effectiveAddress (s.reg rs) imm) (s.reg rt) :=
  if_pos h

/-- Out of bounds SW schedules the fault. -/
theorem schedule_sw_of_not_inBounds {rt rs : RegIdx} {imm : Imm16} {s : State}
    (h : ¬ InBounds4 s.memSize (effectiveAddress (s.reg rs) imm)) :
    schedule (.sw rt rs imm) s = .memoryFault (effectiveAddress (s.reg rs) imm) :=
  if_neg h

/-- What BEQ schedules. -/
theorem schedule_beq (rs rt : RegIdx) (off : Imm16) (s : State) :
    schedule (.beq rs rt off) s =
      if s.reg rs = s.reg rt then .branch (branchTarget s.pc off) else .nothing := by
  simp [schedule, scheduleBeq, equalWords]

/-- A store is scheduled by SW only, and only in bounds. -/
theorem schedule_eq_store {i : Instr} {s : State} {ea v : Word} (h : schedule i s = .store ea v) :
    InBounds4 s.memSize ea ∧
      ∃ rt rs imm, i = .sw rt rs imm ∧ ea = effectiveAddress (s.reg rs) imm ∧ v = s.reg rt := by
  cases i with
  | sw rt rs imm =>
    rw [schedule_sw] at h
    split at h
    · rename_i hb
      simp only [Scheduled.store.injEq] at h
      exact ⟨h.1 ▸ hb, rt, rs, imm, rfl, h.1.symm, h.2.symm⟩
    · cases h
  | lw rt rs imm => rw [schedule_lw] at h; split at h <;> cases h
  | beq rs rt off => rw [schedule_beq] at h; split at h <;> cases h
  | add | sub | addi | unimplemented => cases h

/-- A branch is scheduled by a BEQ whose operands are equal, and by nothing else. -/
theorem schedule_eq_branch {i : Instr} {s : State} {t : Word} (h : schedule i s = .branch t) :
    ∃ rs rt off, i = .beq rs rt off ∧ s.reg rs = s.reg rt ∧ t = branchTarget s.pc off := by
  cases i with
  | beq rs rt off =>
    rw [schedule_beq] at h
    split at h
    · rename_i he
      simp only [Scheduled.branch.injEq] at h
      exact ⟨rs, rt, off, rfl, he, h.symm⟩
    · cases h
  | lw rt rs imm => rw [schedule_lw] at h; split at h <;> cases h
  | sw rt rs imm => rw [schedule_sw] at h; split at h <;> cases h
  | add | sub | addi | unimplemented => cases h

/-- A register write is scheduled for the instruction's destination only. -/
theorem schedule_regWrite_dest {i : Instr} {s : State} {m : Memory} {q : RegIdx} {v : Word}
    (h : (schedule i s).regWrite? m = some (q, v)) : i.dest = some q := by
  cases i with
  | lw rt rs imm =>
    rw [schedule_lw] at h
    split at h <;> simp_all [Scheduled.regWrite?, Instr.dest]
  | sw rt rs imm => rw [schedule_sw] at h; split at h <;> simp [Scheduled.regWrite?] at h
  | beq rs rt off => rw [schedule_beq] at h; split at h <;> simp [Scheduled.regWrite?] at h
  | add | sub | addi | unimplemented =>
    simp_all [schedule, scheduleAdd, scheduleSub, scheduleAddi, scheduleUnimplemented,
      Scheduled.regWrite?, Instr.dest]

/-- A MemoryFault is scheduled by LW and SW only, and only out of bounds. -/
theorem schedule_eq_memoryFault {i : Instr} {s : State} {ea : Word}
    (h : schedule i s = .memoryFault ea) :
    ¬ InBounds4 s.memSize ea ∧ ∃ rt rs imm, (i = .lw rt rs imm ∨ i = .sw rt rs imm) ∧
      ea = effectiveAddress (s.reg rs) imm := by
  cases i with
  | lw rt rs imm =>
    rw [schedule_lw] at h
    split at h
    · cases h
    · rename_i hb
      simp only [Scheduled.memoryFault.injEq] at h
      exact ⟨h ▸ hb, rt, rs, imm, .inl rfl, h.symm⟩
  | sw rt rs imm =>
    rw [schedule_sw] at h
    split at h
    · cases h
    · rename_i hb
      simp only [Scheduled.memoryFault.injEq] at h
      exact ⟨h ▸ hb, rt, rs, imm, .inr rfl, h.symm⟩
  | beq rs rt off => rw [schedule_beq] at h; split at h <;> cases h
  | add | sub | addi | unimplemented => cases h

/-- A step from a state that is not halted and passes the fetch guard. -/
theorem step_of_fetch {s : State} (hh : s.halt = none) (hb : s.FetchInBounds) :
    step s = .next (s.advance.commit (schedule (decode s.fetchWord) s.advance)) := by
  simp only [step, State.fetchStages, hh, hb, if_true, exec_eq_commit_schedule]

/-- Everything a step can do: stay halted, halt at the fetch guard, or carry out the schedule of the
instruction at the pc. -/
theorem step_cases {s t : State} (h : step s = .next t) :
    (s.halt ≠ none ∧ t = s) ∨
    (s.halt = none ∧ ¬ s.FetchInBounds ∧ t = s.takeHalt .outOfRange) ∨
    (s.halt = none ∧ s.FetchInBounds ∧
      t = s.advance.commit (schedule (decode s.fetchWord) s.advance)) := by
  by_cases hh : s.halt = none
  · by_cases hb : s.FetchInBounds
    · rw [step_of_fetch hh hb, Host.Outcome.next.injEq] at h
      exact .inr (.inr ⟨hh, hb, h.symm⟩)
    · simp only [step, State.fetchStages, hh, hb, if_false, Host.Outcome.next.injEq] at h
      exact .inr (.inl ⟨hh, hb, h.symm⟩)
  · obtain ⟨c, hc⟩ := Option.ne_none_iff_exists'.mp hh
    simp only [step, State.fetchStages, hc, Host.Outcome.next.injEq] at h
    exact .inl ⟨hh, h.symm⟩

/-- No schedule changes the memory size or the step counter. -/
@[simp] theorem State.commit_memSize (s : State) (c : Scheduled) :
    (s.commit c).memSize = s.memSize := by cases c <;> rfl
@[simp] theorem State.commit_cycle (s : State) (c : Scheduled) :
    (s.commit c).cycle = s.cycle := by cases c <;> rfl

/-- The pc changes by a taken branch only. -/
theorem State.commit_pc (s : State) (c : Scheduled) :
    (s.commit c).pc = match c with | .branch t => t | _ => s.pc := by cases c <;> rfl

/-- The halt status changes by a MemoryFault only. -/
theorem State.commit_halt (s : State) (c : Scheduled) :
    (s.commit c).halt = match c with | .memoryFault _ => some .memoryFault | _ => s.halt := by
  cases c <;> rfl

/-- Memory changes by a store only. -/
theorem State.commit_mem (s : State) (c : Scheduled) :
    (s.commit c).mem = match c with | .store ea v => s.mem.memWrite ea v | _ => s.mem := by
  cases c <;> rfl

/-- A register changes by a scheduled register write only: the record's `regWrite`. -/
theorem State.commit_reg (s : State) (c : Scheduled) (r : RegIdx) :
    (s.commit c).reg r =
      match c.regWrite? s.mem with
      | some (i, v) => if r = i ∧ r ≠ 0 then v else s.reg r
      | none => s.reg r := by
  cases c with
  | regWrite i v => exact s.reg_writeReg i r v
  | load i ea => exact s.reg_writeReg i r _
  | nothing | store | branch | memoryFault => rfl

/-- Stepping one instance replaces its own state and no other (R122). -/
theorem stepInstance_of_step {n : Nat} {k : Fin n} {machines : Vector State n} {t : State}
    (h : step machines[k] = .next t) : stepInstance k machines = .next (machines.set k t) := by
  simp only [stepInstance, h]

end Sys2Proof.Machine
end

