-- ==== Sys2Proof/Tests/Slice0.lean ====
section
/-!
SUPPORT. Tests from the spec's own examples (spec/95_test_vectors.md), and a witness for the hypotheses of each
statement of Certificates/Slice0/Obligations.lean.
-/
namespace Sys2Proof.Tests
open Sys2Proof.Machine

/-- A 4096-byte machine in its reset state with the pc, some registers and some bytes preset and a word
placed at the pc. -/
def setup (w pc : Word) (regs : List (RegIdx × Word)) (bytes : List Host.Cell) : State :=
  (regs.foldl (fun (s : State) (r : RegIdx × Word) => s.writeReg r.1 r.2)
    { State.reset with pc := pc, mem := writeImage bytes [] }).placeAtPc w

/-- The state a step comes to. -/
def after (s : State) : Option State :=
  match step s with
  | .next t => some t
  | .fault _ => none
  | .refused _ => none

/-- The bytes of 95_test_vectors.md section 2.4, at 0x100. -/
def sampleBytes : List Host.Cell :=
  [(0x100, 0x78), (0x101, 0x56), (0x102, 0x34), (0x103, 0x12), (0x104, 0xEF), (0x105, 0xCD),
   (0x106, 0xAB), (0x107, 0x89)]

/-! ### WellFormed: the one check refuses the words of the six -/

theorem test_wf_refuses_add_word : Instr.wf (.unimplemented 0x00221820) = false := by decide
theorem test_wf_refuses_lw_word : Instr.wf (.unimplemented 0x8C220000) = false := by decide
theorem test_wf_accepts_zero_word : Instr.wf (.unimplemented 0x00000000) = true := by decide

/-! ### Decoding, by words written out from the encodings of R52, R53 and R55 -/

theorem test_decode_add :
    decode 0b000000_01001_01000_01001_00000_100000#32 = .add 9 9 8 0 := by decide
theorem test_decode_sub :
    decode 0b000000_00011_00100_00101_00000_100010#32 = .sub 5 3 4 0 := by decide
theorem test_decode_addi :
    decode 0b001000_01000_01001_1111111111111111#32 = .addi 9 8 0xFFFF := by decide
theorem test_decode_lw :
    decode 0b100011_00001_00011_0000000000000100#32 = .lw 3 1 4 := by decide
theorem test_decode_sw :
    decode 0b101011_00001_01001_1000000000000000#32 = .sw 9 1 0x8000 := by decide
theorem test_decode_beq :
    decode 0b000100_01000_00010_1111111111111100#32 = .beq 8 2 0xFFFC := by decide
theorem test_decode_unimplemented :
    decode 0b000000_00001_00010_00011_00000_100001#32 = .unimplemented 0x00221821 := by decide
theorem test_decode_shamt_kept :
    decode 0b000000_00001_00010_00011_11111_100000#32 = .add 3 1 2 31 := by decide
theorem test_decode_table_word : decodeTableWord 32 0x8C230000 = some (.lw 3 1 0) := by decide
theorem test_decode_short_bytes : decodeBytes [0x8C, 0x23, 0x00] = .error (.truncated 3) := rfl
theorem test_encode_add : encode (.add 9 9 8 0) = 0x01284820#32 := by decide
theorem test_encode_sw : encode (.sw 9 0 0) = 0xAC090000#32 := by decide

/-! ### One step each (sections 1.4 to 1.9 and 2.1 to 2.9) -/

theorem test_add_wraps :
    (after (setup 0x00221820 0 [(1, 0x7FFFFFFF), (2, 1)] [])).map (fun t => (t.reg 3, t.pc)) =
      some (0x80000000#32, 4#32) := by decide
theorem test_add_same_register :
    (after (setup 0x00A52820 0 [(5, 3)] [])).map (fun t => t.reg 5) = some 6#32 := by decide
theorem test_sub_borrows :
    (after (setup 0x00221822 0 [(2, 1)] [])).map (fun t => t.reg 3) = some 0xFFFFFFFF#32 := by decide
theorem test_sub_to_register_zero :
    (after (setup 0x00220022 0 [(1, 9), (2, 4)] [])).map (fun t => (t.reg 0, t.regs)) =
      some (0#32, (setup 0 0 [(1, 9), (2, 4)] []).regs) := by decide
theorem test_addi_sign_extends :
    (after (setup 0x20228000 0 [] [])).map (fun t => t.reg 2) = some 0xFFFF8000#32 := by decide
theorem test_addi_wraps :
    (after (setup 0x2022FFFF 0 [(1, 0x80000000)] [])).map (fun t => t.reg 2) =
      some 0x7FFFFFFF#32 := by decide
theorem test_lw_misaligned :
    (after (setup 0x8C220001 0 [(1, 0x100)] sampleBytes)).map (fun t => t.reg 2) =
      some 0xEF123456#32 := by decide
theorem test_lw_above_memory_faults :
    (after (setup 0x8C220000 0 [(1, 0xFFD), (2, 7)] [])).map
      (fun t => (t.halt, t.reg 2, t.pc, t.cycle)) =
      some (some .memoryFault, 7#32, 4#32, 1) := by decide
theorem test_sw_keeps_neighbours :
    (after (setup 0xAC220002 0 [(1, 0x100), (2, 0xAABBCCDD)] sampleBytes)).map
      (fun t => (List.range 8).map (fun k => t.byte (0x100 + k))) =
      some [0x78, 0x56, 0xDD, 0xCC, 0xBB, 0xAA, 0xAB, 0x89] := by decide
theorem test_sw_above_memory_writes_nothing :
    (after (setup 0xAC220000 0 [(1, 0xFFD), (2, 0xDEADBEEF)] [])).map
      (fun t => (t.halt, (List.range 4).map (fun k => t.byte (0xFFC + k)))) =
      some (some .memoryFault, [0, 0, 0, 0]) := by decide
theorem test_beq_taken :
    (after (setup 0x10220003 0x40 [(1, 7), (2, 7)] [])).map (fun t => t.pc) = some 0x50#32 := by
  decide
theorem test_beq_wraps_below_zero :
    (after (setup 0x1000FFFE 0 [] [])).map (fun t => (t.pc, t.halt)) =
      some (0xFFFFFFFC#32, none) := by decide
theorem test_unimplemented_is_no_load :
    (after (setup 0x8822FFFF 0x40 [(1, 0x100)] [])).map (fun t => (t.pc, t.halt, t.reg 2)) =
      some (0x44#32, none, 0#32) := by decide
theorem test_fetch_guard_boundary :
    (after (setup 0 0xFFC [] [])).map (fun t => (t.pc, t.halt)) = some (0x1000#32, none) ∧
    (after (setup 0 0x1000 [] [])).map (fun t => (t.pc, t.halt, t.cycle)) =
      some (0x1000#32, some .outOfRange, 0) := by decide
theorem test_halt_latch :
    (after { State.reset with halt := some .memoryFault, pc := 4, cycle := 1 }).map
      (fun t => (t.pc, t.cycle)) = some (4#32, 1) := by decide
theorem test_record_of_register_zero :
    (traceRecord (setup 0x00220020 0 [(1, 5), (2, 6)] [])).regWrite = some (0, 0xB#32) := by decide
theorem test_record_of_lw :
    (traceRecord (setup 0x8C220004 0 [(1, 0x100)] sampleBytes)).memRead =
      some (0x104#32, 0x89ABCDEF#32) := by decide
theorem test_host_word_runs_first :
    (after (State.reset.withFetchWord 32 0x20080005)).map (fun t => (t.reg 8, t.pc, t.cycle)) =
      some (5#32, 4#32, 1) := by decide
theorem test_launch_lays_program_big_endian :
    (match launch 4096 [(0x40, 6)] [0x20080005, 0x20090000] with
      | .next s => (List.range 8).map s.byte ++ [s.byte 0x40]
      | .fault _ => []
      | .refused _ => []) = [0x20, 8, 0, 5, 0x20, 9, 0, 0, 6] := by decide
theorem test_launch_refuses_long_program :
    launch 4 [] [0, 0] = .refused (.programDoesNotFit 2) := rfl
theorem test_launch_refuses_illegal_size : launch 3 [] [] = .refused (.illegalMemSize 3) := rfl

/-! ### Witnesses: states and operands that meet each statement's hypotheses -/

/-- ADD r3, r1, r2 at 0. -/
def sAdd : State := setup 0x00221820 0 [(1, 5), (2, 6)] []
/-- SUB r3, r1, r2 at 0. -/
def sSub : State := setup 0x00221822 0 [(1, 5), (2, 6)] []
/-- ADDI r2, r1, -1 at 0. -/
def sAddi : State := setup 0x2022FFFF 0 [(1, 5)] []
/-- LW r2, 0(r1) at 0, at the highest legal address. -/
def sLw : State := setup 0x8C220000 0 [(1, 0xFFC)] []
/-- LW r2, 0(r1) at 0, at the lowest illegal address. -/
def sLwOut : State := setup 0x8C220000 0 [(1, 0xFFD)] []
/-- SW r2, 0(r1) at 0, at the highest legal address. -/
def sSw : State := setup 0xAC220000 0 [(1, 0xFFC), (2, 0x11223344)] []
/-- SW r2, 0(r1) at 0, at the lowest illegal address. -/
def sSwOut : State := setup 0xAC220000 0 [(1, 0xFFD), (2, 0x11223344)] []
/-- SW r2, 4(r0) at 0: the store is to the next instruction. -/
def sSwNext : State := setup 0xAC020004 0 [(2, 0x11223344)] []
/-- BEQ r1, r2, -1 at 0x40 with equal operands. -/
def sBeq : State := setup 0x1022FFFF 0x40 [(1, 7), (2, 7)] []
/-- BEQ r1, r2, 0 at 0x40 with unequal operands. -/
def sBeqNot : State := setup 0x10220000 0x40 [(1, 7), (2, 8)] []
/-- An UNIMPLEMENTED word with opcode 0 at 0x40. -/
def sUn0 : State := setup 0x00221821 0x40 [] []
/-- An UNIMPLEMENTED word with another opcode at 0x40. -/
def sUn : State := setup 0xFFFFFFFF 0x40 [] []
/-- A pc at the lowest value the fetch guard refuses. -/
def sOut : State := { State.reset with pc := 0xFFD }
/-- A halted machine. -/
def sHalted : State := { State.reset with halt := some .outOfRange, pc := 0x1000 }

theorem witness_DecodeEncodeRoundTrip : Instr.wf (.unimplemented 0xFFFFFFFF) = true := by decide
theorem witness_DecodeFollowsTheOpcodeMap :
    Mnemonic.sub ≠ .unimplemented ∧ Mnemonic.sub.Matches 0x00221822 := by decide
theorem witness_ShamtIsIgnored :
    (0x00221820#32 &&& 0xFFFFF83F#32 = 0x00221FE0#32 &&& 0xFFFFF83F#32 ∧
      Mnemonic.add.Matches 0x00221820) ∧
    (0x00221822#32 &&& 0xFFFFF83F#32 = 0x00221FE2#32 &&& 0xFFFFF83F#32 ∧
      Mnemonic.sub.Matches 0x00221822) := by decide
theorem witness_RegisterZeroDiscardsWrites :
    (31 : RegIdx) ≠ 0 ∧ Instr.dest (.lw 0 1 0) = some 0 ∧
      ∃ t, exec (.lw 0 1 0) sLw = .next t := ⟨by decide, rfl, _, rfl⟩
theorem witness_OnlyTheDestinationChanges :
    ∃ t, step sAdd = .next t ∧ t.reg 3 ≠ sAdd.reg 3 := ⟨_, rfl, by decide⟩
theorem witness_OnlyTheSourcesAreRead :
    (7 : RegIdx) ∉ Instr.sources (.lw 7 1 0) ∧
    (∀ r : RegIdx, r ≠ 7 → (sLw.writeReg 7 9).reg r = sLw.reg r) ∧
    (sLw.writeReg 7 9).pc = sLw.pc ∧ (sLw.writeReg 7 9).mem = sLw.mem ∧
    (sLw.writeReg 7 9).memSize = sLw.memSize ∧ (sLw.writeReg 7 9).halt = sLw.halt ∧
    (sLw.writeReg 7 9).cycle = sLw.cycle ∧
    ∃ t t', exec (.lw 7 1 0) sLw = .next t ∧ exec (.lw 7 1 0) (sLw.writeReg 7 9) = .next t' ∧
      Instr.dest (.lw 7 1 0) = some 7 ∧ t.halt ≠ some .memoryFault :=
  ⟨by decide, by decide, rfl, rfl, rfl, rfl, rfl, _, _, rfl, rfl, rfl, by decide⟩
theorem witness_PcAndCycleAreNotReadable :
    ∃ t t', exec (.add 3 1 2 0) sAdd = .next t ∧
      exec (.add 3 1 2 0) { sAdd with pc := 8, cycle := 5 } = .next t' ∧
      Instr.mnemonic (.add 3 1 2 0) ≠ .beq := ⟨_, _, rfl, rfl, by decide⟩
theorem witness_MixedAccessReversesTheBytes : 3 < 4 := by decide
theorem witness_CanonicalMemoryIsItsBytes :
    Memory.wf (writeImage sampleBytes []) = true ∧ Memory.wf sampleBytes = true ∧
      ∀ a : Nat, Memory.readByte (writeImage sampleBytes []) a = Memory.readByte sampleBytes a :=
  ⟨by decide, by decide, fun a => by
    rw [show writeImage sampleBytes [] = sampleBytes by decide]⟩
theorem witness_BoundsPredicate :
    4096 ≤ 2 ^ 31 ∧ InBounds4 4096 0xFFC ∧ ¬ InBounds4 4096 0xFFD ∧
      ¬ InBounds4 (2 ^ 31) 0xFFFFFFFE := by decide
theorem witness_OnlySwChangesMemory :
    ∃ t, step sSw = .next t ∧ t.byte 0xFFC ≠ sSw.byte 0xFFC := ⟨_, rfl, by decide⟩
theorem witness_StoreIsSeenByTheNextFetch :
    sSwNext.Fetches 0xAC020004 ∧ Mnemonic.sw.Matches 0xAC020004 ∧
      InBounds4 sSwNext.memSize
        (effectiveAddress (sSwNext.reg (rsOf 0xAC020004)) (imm16Of 0xAC020004)) ∧
      effectiveAddress (sSwNext.reg (rsOf 0xAC020004)) (imm16Of 0xAC020004) =
        sSwNext.pc + 4#32 := by decide
theorem witness_LoadAfterStoreSeesTheValue :
    (5 : RegIdx) ≠ 0 ∧ InBounds4 sSw.memSize (effectiveAddress (sSw.reg 1) 0) ∧
      effectiveAddress (sSw.reg 0) 0xFFC = effectiveAddress (sSw.reg 1) 0 := by decide
theorem witness_StepRunsTheDecodedInstruction :
    sAdd.halt = none ∧ sAdd.FetchInBounds ∧
      decodeBytes [sAdd.byte sAdd.pc.toNat, sAdd.byte (sAdd.pc.toNat + 1),
        sAdd.byte (sAdd.pc.toNat + 2), sAdd.byte (sAdd.pc.toNat + 3)] =
        .ok (.add 3 1 2 0, []) ∧
      Instr.wf (.add 3 1 2 0) = true ∧
      [sAdd.byte sAdd.pc.toNat, sAdd.byte (sAdd.pc.toNat + 1),
        sAdd.byte (sAdd.pc.toNat + 2), sAdd.byte (sAdd.pc.toNat + 3)] =
        bytesBE (encode (.add 3 1 2 0)) := ⟨by decide, by decide, by rfl, rfl, by decide⟩
theorem witness_StepCommitsAllOrNothing :
    (sAdd.halt = none ∧ (∃ t, step sAdd = .next t ∧ t.halt = none ∧ t.reg 3 ≠ sAdd.reg 3) ∧
      schedule (decode sAdd.fetchWord) sAdd.advance = .regWrite 3 11) ∧
    (sSw.halt = none ∧ (∃ t, step sSw = .next t ∧ t.halt = none ∧
      t.byte 0xFFF ≠ sSw.byte 0xFFF) ∧
      ∃ ea v, schedule (decode sSw.fetchWord) sSw.advance = .store ea v) ∧
    (sLw.halt = none ∧ (∃ t, step sLw = .next t ∧ t.halt = none) ∧
      ∃ r ea, schedule (decode sLw.fetchWord) sLw.advance = .load r ea ∧ r ≠ 0) ∧
    (sBeq.halt = none ∧ (∃ t, step sBeq = .next t ∧ t.halt = none) ∧
      schedule (decode sBeq.fetchWord) sBeq.advance = .branch 0x40) ∧
    (sOut.halt = none ∧ ∃ t, step sOut = .next t ∧ t.halt = some .outOfRange) ∧
    (sLwOut.halt = none ∧ ∃ t, step sLwOut = .next t ∧ t.halt = some .memoryFault) :=
  ⟨⟨by decide, ⟨_, rfl, by decide, by decide⟩, by decide⟩,
   ⟨by decide, ⟨_, rfl, by decide, by decide⟩, _, _, rfl⟩,
   ⟨by decide, ⟨_, rfl, by decide⟩, _, _, rfl, by decide⟩,
   ⟨by decide, ⟨_, rfl, by decide⟩, by decide⟩,
   ⟨by decide, _, rfl, by decide⟩, ⟨by decide, _, rfl, by decide⟩⟩
/-- Two instances, and one of them again in another place of another collection. -/
theorem witness_InstancesShareNoState :
    (0 : Fin 2) ≠ 1 ∧ (#v[sSw] : Vector State 1)[(0 : Fin 1)] = (#v[sAdd, sSw] : Vector State 2)[(1 : Fin 2)] ∧
    (∃ t, stepInstance 1 #v[sAdd, sSw] = .next t ∧ t[(0 : Fin 2)] = sAdd ∧ t[(1 : Fin 2)] ≠ sSw) ∧
    ∃ t, stepInstance 0 #v[sSw] = .next t :=
  ⟨by decide, rfl, ⟨_, rfl, rfl, by decide⟩, _, rfl⟩
theorem witness_PcAfterEveryStep :
    (sOut.halt = none ∧ ∃ t, step sOut = .next t ∧ sOut.memSize ≤ sOut.pc.toNat + 3) ∧
    (sBeq.halt = none ∧ ∃ t, step sBeq = .next t ∧ decode sBeq.fetchWord = .beq 1 2 0xFFFF ∧
      sBeq.reg 1 = sBeq.reg 2) ∧
    (sBeqNot.halt = none ∧ ∃ t, step sBeqNot = .next t ∧
      decode sBeqNot.fetchWord = .beq 1 2 0 ∧ sBeqNot.reg 1 ≠ sBeqNot.reg 2) :=
  ⟨⟨by decide, _, rfl, by decide⟩, ⟨by decide, _, rfl, by decide, by decide⟩,
   ⟨by decide, _, rfl, by decide, by decide⟩⟩
theorem witness_PcAdvanceNeverWraps :
    Config.LegalMemSize (setup 0 0xFFC [] []).memSize ∧ (setup 0 0xFFC [] []).FetchInBounds := by
  decide
theorem witness_CycleCountsTheFetches :
    (∃ t, step sAdd = .next t ∧ sAdd.halt = none ∧ sAdd.FetchInBounds) ∧
    (∃ t, step sOut = .next t ∧ ¬ sOut.FetchInBounds) ∧
    (∃ t, step sHalted = .next t ∧ sHalted.halt ≠ none) :=
  ⟨⟨_, rfl, by decide, by decide⟩, ⟨_, rfl, by decide⟩, ⟨_, rfl, by decide⟩⟩
theorem witness_ZeroedMemoryRunsToOutOfRange :
    ({ State.reset with pc := 0xFF8 } : State).halt = none ∧
    ({ State.reset with pc := 0xFF8 } : State).memSize ≤ 2 ^ 31 ∧
    (∀ a : Nat, 0xFF8 ≤ a → ({ State.reset with pc := 0xFF8 } : State).byte a = 0#8) ∧
    0xFF8 + 4 * 2 ≤ ({ State.reset with pc := 0xFF8 } : State).memSize ∧
    ({ State.reset with pc := 0xFF8 } : State).memSize < 0xFF8 + 4 * 2 + 4 :=
  ⟨rfl, by decide, fun _ _ => rfl, by decide, by decide⟩
theorem witness_TraceRecordTellsTheStep :
    (∃ t, step sLw = .next t ∧ (traceRecord sLw).memRead = some (0xFFC#32, 0#32)) ∧
    (∃ t, step sSw = .next t ∧ (traceRecord sSw).memWrite ≠ none) ∧
    (∃ t, step sHalted = .next t ∧ (traceRecord sHalted).word = none) :=
  ⟨⟨_, rfl, by decide⟩, ⟨_, rfl, by decide⟩, ⟨_, rfl, by decide⟩⟩
theorem witness_OutOfRangeHaltChangesOnlyHalt :
    sOut.halt = none ∧ sOut.memSize ≤ sOut.pc.toNat + 3 := by decide
theorem witness_MemoryFaultHaltKeepsRegistersAndMemory :
    (sLwOut.Fetches 0x8C220000 ∧ Mnemonic.lw.Matches 0x8C220000 ∧ sLwOut.memSize ≤
      (effectiveAddress (sLwOut.reg (rsOf 0x8C220000)) (imm16Of 0x8C220000)).toNat + 3) ∧
    (sSwOut.Fetches 0xAC220000 ∧ Mnemonic.sw.Matches 0xAC220000 ∧ sSwOut.memSize ≤
      (effectiveAddress (sSwOut.reg (rsOf 0xAC220000)) (imm16Of 0xAC220000)).toNat + 3) := by
  decide
theorem witness_HaltedMachineNeverChanges : sHalted.halt = some .outOfRange := rfl
theorem witness_ExactlyTwoExceptions :
    (sLwOut.halt = none ∧ ∃ t, step sLwOut = .next t ∧ t.halt = some .memoryFault) ∧
    (sOut.halt = none ∧ ∃ t, step sOut = .next t ∧ t.halt = some .outOfRange) ∧
    (sLw.halt = none ∧ ∃ t, step sLw = .next t ∧ t.halt = none) :=
  ⟨⟨by decide, _, rfl, by decide⟩, ⟨by decide, _, rfl, by decide⟩,
   ⟨by decide, _, rfl, by decide⟩⟩
theorem witness_AddRule :
    sAdd.Fetches 0x00221820 ∧ 0x00221820#32 &&& 0xFC00003F#32 = 0x00000020#32 := by decide
theorem witness_SubRule :
    sSub.Fetches 0x00221822 ∧ 0x00221822#32 &&& 0xFC00003F#32 = 0x00000022#32 := by decide
theorem witness_AddiRule :
    sAddi.Fetches 0x2022FFFF ∧ 0x2022FFFF#32 &&& 0xFC000000#32 = 0x20000000#32 := by decide
theorem witness_LwRule :
    0x8C220000#32 &&& 0xFC000000#32 = 0x8C000000#32 ∧
    (sLw.Fetches 0x8C220000 ∧
      0xFFC#32 = effectiveAddress (sLw.reg (rsOf 0x8C220000)) (imm16Of 0x8C220000) ∧
      0#32 = sLw.byte 0xFFF ++ sLw.byte 0xFFE ++ sLw.byte 0xFFD ++ sLw.byte 0xFFC ∧
      (0xFFC#32).toNat + 3 < sLw.memSize) ∧
    (sLwOut.Fetches 0x8C220000 ∧
      0xFFD#32 = effectiveAddress (sLwOut.reg (rsOf 0x8C220000)) (imm16Of 0x8C220000) ∧
      sLwOut.memSize ≤ (0xFFD#32).toNat + 3) := by decide
theorem witness_SwRule :
    0xAC220000#32 &&& 0xFC000000#32 = 0xAC000000#32 ∧
    (sSw.Fetches 0xAC220000 ∧
      0xFFC#32 = effectiveAddress (sSw.reg (rsOf 0xAC220000)) (imm16Of 0xAC220000) ∧
      (0xFFC#32).toNat + 3 < sSw.memSize) ∧
    (sSwOut.Fetches 0xAC220000 ∧
      0xFFD#32 = effectiveAddress (sSwOut.reg (rsOf 0xAC220000)) (imm16Of 0xAC220000) ∧
      sSwOut.memSize ≤ (0xFFD#32).toNat + 3) := by decide
theorem witness_BeqRule :
    (sBeq.Fetches 0x1022FFFF ∧ 0x1022FFFF#32 &&& 0xFC000000#32 = 0x10000000#32 ∧
      sBeq.reg (rsOf 0x1022FFFF) = sBeq.reg (rtOf 0x1022FFFF)) ∧
    (sBeqNot.Fetches 0x10220000 ∧ 0x10220000#32 &&& 0xFC000000#32 = 0x10000000#32 ∧
      sBeqNot.reg (rsOf 0x10220000) ≠ sBeqNot.reg (rtOf 0x10220000)) := by decide
theorem witness_UnimplementedRule :
    (sUn.Fetches 0xFFFFFFFF ∧
      ¬ ((0xFFFFFFFF#32).toNat / 2 ^ 26 = 0x00 ∨ (0xFFFFFFFF#32).toNat / 2 ^ 26 = 0x04 ∨
        (0xFFFFFFFF#32).toNat / 2 ^ 26 = 0x08 ∨ (0xFFFFFFFF#32).toNat / 2 ^ 26 = 0x23 ∨
        (0xFFFFFFFF#32).toNat / 2 ^ 26 = 0x2B)) ∧
    (sUn0.Fetches 0x00221821 ∧ (0x00221821#32).toNat / 2 ^ 26 = 0x00 ∧
      (0x00221821#32).toNat % 2 ^ 6 ≠ 0x20 ∧ (0x00221821#32).toNat % 2 ^ 6 ≠ 0x22) := by decide
theorem witness_LwCompletes :
    InBounds4 sLw.memSize (effectiveAddress (sLw.reg 1) 0) := by decide
theorem witness_SwCompletes :
    InBounds4 sSw.memSize (effectiveAddress (sSw.reg 1) 0) := by decide
theorem witness_LwSwTrapOutOfBounds :
    sLwOut.memSize ≤ (effectiveAddress (sLwOut.reg 1) 0).toNat + 3 := by decide
theorem witness_SignedAndUnsignedAgree : (3 : RegIdx) ≠ 0 := by decide
theorem witness_BranchTargetsAreAligned : (0x44#32).toNat % 4 = 0 := by decide
theorem witness_BranchOffsetCorners :
    (sBeq.Fetches 0x1022FFFF ∧ Mnemonic.beq.Matches 0x1022FFFF ∧
      sBeq.reg (rsOf 0x1022FFFF) = sBeq.reg (rtOf 0x1022FFFF) ∧
      imm16Of 0x1022FFFF = 0xFFFF#16) ∧
    (sBeqNot.Fetches 0x10220000 ∧ Mnemonic.beq.Matches 0x10220000 ∧
      imm16Of 0x10220000 = 0#16) := by decide
theorem witness_ResetValues : 4 ≤ 4 := by decide
theorem witness_ResetMeetsTheInvariant :
    Config.LegalMemSize 4 ∧ Config.LegalMemSize (2 ^ 31) := by decide
theorem witness_StepKeepsTheInvariant :
    sSw.Inv ∧ ∃ t, step sSw = .next t := ⟨by decide, _, rfl⟩

/-- A launch of a one-word program over an image. -/
def launched : Host.Outcome State Fault Refusal := launch 4096 [(0x40, 6), (0x40, 7)] [0x20080005]

theorem witness_LaunchMeetsTheInvariant : ∃ s, launched = .next s := ⟨_, rfl⟩
theorem witness_ReachableStatesMeetTheInvariant :
    ∃ s t, Reachable s ∧ step s = .next t ∧ Reachable t :=
  ⟨_, _, .launched (memSize := 4096) (image := []) (program := []) rfl, rfl,
    .stepped (.launched (memSize := 4096) (image := []) (program := []) rfl) rfl⟩
theorem witness_LaunchPlacesTheProgram :
    (∃ s, launched = .next s) ∧ 0 < ([0x20080005#32] : List Word).length ∧
    4 * ([0x20080005#32] : List Word).length ≤ 4 ∧
    ∀ cell ∈ ([(0x40, 6), (0x40, 7)] : List Host.Cell), cell.1 ≠ 4 := ⟨⟨_, rfl⟩, by decide⟩
theorem witness_LaunchWritesTheImage :
    ∃ s, launched = .next s ∧ 4 * ([0x20080005#32] : List Word).length ≤ 0x40 :=
  ⟨_, rfl, by decide⟩
theorem witness_LaunchSucceedsExactlyWhenItFits :
    (∃ s, launched = .next s) ∧
    (∀ s, launch 4096 [(0x1000, 1)] [] ≠ .next s) := 
  ⟨⟨_, rfl⟩, fun _ h => by
    rw [show launch 4096 [(0x1000, 1)] [] = .refused .imageOutsideMemory from rfl] at h
    cases h⟩

end Sys2Proof.Tests
end

section
/-!
The loader computed: the words of a program that fits are the bytes of one big-endian block store, and a launch is
its three conditions and the state it makes (spec/70_reset_and_hazards.md rules R133 to R135, decisions D3, D14).
-/
namespace Sys2Proof.Machine

/-- Bytes written in two parts, the second right behind the first, are written as one block. -/
theorem Memory.writeBytes_append (m : Memory) (a : Nat) (bs cs : List Byte) :
    m.writeBytes a (bs ++ cs) = (m.writeBytes a bs).writeBytes (a + bs.length) cs := by
  induction bs generalizing m a with
  | nil => rfl
  | cons b bs ih =>
    have haddr : a + 1 + bs.length = a + (b :: bs).length := by
      rw [List.length_cons]
      omega
    have htail := ih (m.writeByte a b) (a + 1)
    rw [haddr] at htail
    exact htail

/-- The loader's word store where all four bytes exist. -/
theorem loaderWrite_of_inBounds {a : Nat} {s : State} (w : Word) (h : a + 3 < s.memSize) :
    loaderWrite a w s = .next { s with mem := s.mem.writeBytes a (bytesBE w) } := if_pos h

/-- Words that fit are all placed: one block store of their bytes in order, and nothing but memory changes. -/
theorem loadWords_of_fits {a : Nat} {ws : List Word} {s : State}
    (h : a + 4 * ws.length ≤ s.memSize) :
    loadWords a ws s = .next { s with mem := s.mem.writeBytes a (ws.flatMap bytesBE) } := by
  induction ws generalizing a s with
  | nil => rfl
  | cons w ws ih =>
    rw [List.length_cons] at h
    have hfirst := loaderWrite_of_inBounds w (show a + 3 < s.memSize by omega)
    have hrest := ih (a := a + 4) (s := { s with mem := s.mem.writeBytes a (bytesBE w) })
      (show a + 4 + 4 * ws.length ≤ s.memSize by omega)
    rw [loadWords, hfirst]
    simpa [Memory.writeBytes_append] using hrest

/-- The state a successful launch makes: the reset state with the image written and the program's bytes over it. -/
def launchState (memSize : Nat) (image : List Host.Cell) (program : List Word) : State :=
  { State.resetWith memSize with
    mem := (writeImage image []).writeBytes Config.loadAddress (program.flatMap bytesBE) }

section
variable (n : Nat) (image : List Host.Cell) (program : List Word)

@[simp] theorem launchState_memSize : (launchState n image program).memSize = n := rfl
@[simp] theorem launchState_pc : (launchState n image program).pc = 0#32 := rfl
@[simp] theorem launchState_mem : (launchState n image program).mem =
    (writeImage image []).writeBytes Config.loadAddress (program.flatMap bytesBE) := rfl
@[simp] theorem launchState_halt : (launchState n image program).halt = none := rfl
@[simp] theorem launchState_cycle : (launchState n image program).cycle = 0 := rfl
@[simp] theorem launchState_reg (r : RegIdx) : (launchState n image program).reg r = 0#32 :=
  State.reg_resetWith n r

/-- The conditions under which a launch is not refused (R9, R134, R135; decisions D3 and D14). -/
abbrev LaunchFits : Prop :=
  Config.LegalMemSize n ∧ (∀ cell ∈ image, cell.1 < n) ∧ 4 * program.length ≤ n

end

/-- A launch that fits makes the launch state. -/
theorem launch_of_fits {n : Nat} {image : List Host.Cell} {program : List Word}
    (h : LaunchFits n image program) :
    launch n image program = .next (launchState n image program) := by
  obtain ⟨hsize, himage, hprogram⟩ := h
  have hload : Config.loadAddress + 4 * program.length ≤ n := by
    simpa [Config.loadAddress] using hprogram
  rw [launch, if_neg (not_not_intro hsize), if_neg (not_not_intro himage),
    if_neg (not_not_intro hprogram)]
  exact loadWords_of_fits hload

/-- A launch that makes a state fits: each condition that fails is refused. -/
theorem launchFits_of_launch {n : Nat} {image : List Host.Cell} {program : List Word} {s : State}
    (h : launch n image program = .next s) : LaunchFits n image program := by
  unfold launch at h
  split_ifs at h with hsize himage hprogram
  exact ⟨hsize, himage, hprogram⟩

/-- Everything a launch can succeed with, and when it does. -/
theorem launch_eq_next_iff {n : Nat} {image : List Host.Cell} {program : List Word} {s : State} :
    launch n image program = .next s ↔
      LaunchFits n image program ∧ s = launchState n image program := by
  constructor
  · intro h
    have hfits := launchFits_of_launch h
    rw [launch_of_fits hfits, Host.Outcome.next.injEq] at h
    exact ⟨hfits, h.symm⟩
  · rintro ⟨hfits, rfl⟩
    exact launch_of_fits hfits

/-- Settles O56: a launch succeeds exactly with the launch state and exactly when it fits (`launch_eq_next_iff`),
and loading changes memory only. -/
theorem launchSucceedsExactlyWhenItFits : Obligations.LaunchSucceedsExactlyWhenItFits := by
  intro n image program
  constructor
  · constructor
    · rintro ⟨s, h⟩
      exact launchFits_of_launch h
    · intro hfits
      exact ⟨_, launch_of_fits hfits⟩
  · intro s h
    obtain ⟨-, rfl⟩ := launch_eq_next_iff.mp h
    simp

end Sys2Proof.Machine
end

section
/-!
The branch target as a number (spec/43_branch.md rules R95 and R97), and what carrying out an instruction's own schedule
does to the pc, the registers and the bytes.
-/
namespace Sys2Proof.Machine

/-- BEQ's offset is the signed immediate times 4 (R54). -/
theorem sext32_shiftLeft_two (off : Imm16) :
    sext32 off <<< 2 = BitVec.ofInt 32 (4 * off.toInt) := by
  rw [BitVec.ofInt_mul, BitVec.shiftLeft_eq_mul_twoPow, BitVec.mul_comm]
  rfl

/-- The target of a branch in a step, from the pc before the advance (R95). -/
theorem branchTarget_add_four (p : Word) (off : Imm16) :
    branchTarget (p + 4#32) off = BitVec.ofInt 32 (p.toNat + 4 + 4 * off.toInt) := by
  rw [branchTarget, sext32_shiftLeft_two, BitVec.ofInt_add (p.toNat + 4), BitVec.ofInt_add]
  simp

/-- The pc advance keeps the pc a multiple of 4, also where it wraps (R15, R74). -/
theorem toNat_add_four_mod_four {p : Word} (h : p.toNat % 4 = 0) : (p + 4#32).toNat % 4 = 0 := by
  rw [BitVec.toNat_add, BitVec.toNat_ofNat]
  omega

/-- A branch from an aligned pc has an aligned target (R97). -/
theorem toNat_branchTarget_mod_four {p : Word} (h : p.toNat % 4 = 0) (off : Imm16) :
    (branchTarget p off).toNat % 4 = 0 := by
  rw [branchTarget, BitVec.toNat_add, BitVec.toNat_shiftLeft, Nat.shiftLeft_eq]
  omega

/-- BEQ carried out is one pc write: the target when the operands are equal, the pc itself otherwise. -/
theorem commit_schedule_beq (s : State) (rs rt : RegIdx) (off : Imm16) :
    s.commit (schedule (.beq rs rt off) s) =
      s.setPc (if s.reg rs = s.reg rt then branchTarget s.pc off else s.pc) := by
  rw [schedule_beq]
  split <;> rfl

/-- No instruction but BEQ changes the pc. -/
theorem pc_commit_schedule_of_ne_beq {i : Instr} (s : State) (h : i.mnemonic ≠ .beq) :
    (s.commit (schedule i s)).pc = s.pc := by
  rw [State.commit_pc]
  split
  · rename_i hc
    obtain ⟨rs, rt, off, rfl, -⟩ := schedule_eq_branch hc
    exact absurd rfl h
  · rfl

/-- A register that an instruction changes is its destination, and not register 0 (R11, R12). -/
theorem dest_of_reg_commit_schedule_ne {i : Instr} {s : State} {r : RegIdx}
    (h : (s.commit (schedule i s)).reg r ≠ s.reg r) : r ≠ 0 ∧ i.dest = some r := by
  rw [State.commit_reg] at h
  split at h
  · rename_i hw
    split at h
    · rename_i hr
      obtain ⟨rfl, h0⟩ := hr
      exact ⟨h0, schedule_regWrite_dest hw⟩
    · exact absurd rfl h
  · exact absurd rfl h

/-- A byte that a data word store changes is one of the four from its address (R35). -/
theorem State.byte_storeWord_ne {s : State} {ea v : Word} {a : Nat}
    (h : (s.storeWord ea v).byte a ≠ s.byte a) : ea.toNat ≤ a ∧ a < ea.toNat + 4 := by
  rw [State.byte_storeWord] at h
  split at h
  · rename_i ha
    rw [length_bytesLE] at ha
    omega
  · exact absurd rfl h

/-- A byte that an instruction changes is one of the four that an in-bounds SW stores (R39, R93). -/
theorem sw_of_byte_commit_schedule_ne {i : Instr} {s : State} {a : Nat}
    (h : (s.commit (schedule i s)).byte a ≠ s.byte a) :
    ∃ rt rs imm, i = .sw rt rs imm ∧ InBounds4 s.memSize (effectiveAddress (s.reg rs) imm) ∧
      (effectiveAddress (s.reg rs) imm).toNat ≤ a ∧
      a < (effectiveAddress (s.reg rs) imm).toNat + 4 := by
  cases hc : schedule i s with
  | store ea v =>
    obtain ⟨hb, rt, rs, imm, hi, rfl, -⟩ := schedule_eq_store hc
    rw [hc] at h
    exact ⟨rt, rs, imm, hi, hb, State.byte_storeWord_ne h⟩
  | nothing | regWrite | load | branch | memoryFault =>
    rw [hc] at h
    exact absurd rfl h

end Sys2Proof.Machine
end

section
/-!
The invariant of every reachable state: kept by each stage of a step, and true of every launch state
(spec/10_state.md rules R15 to R17, R26; spec/40_step_cycle.md rule R71).
-/
namespace Sys2Proof.Machine

/-- The pc advance of a running machine keeps the invariant. -/
theorem State.inv_advance {s : State} (h : s.Inv) (hrun : s.halt = none) : s.advance.Inv := by
  obtain ⟨hsize, hwf, hinside, hpc, -⟩ := h
  exact ⟨hsize, hwf, hinside, toNat_add_four_mod_four hpc, fun hhalt => by simp [hrun] at hhalt⟩

/-- The OutOfRange halt, taken where the fetch guard fails, keeps the invariant (R111). -/
theorem State.inv_takeHalt_outOfRange {s : State} (h : s.Inv) (hguard : ¬ s.FetchInBounds) :
    (s.takeHalt .outOfRange).Inv := by
  obtain ⟨hsize, hwf, hinside, hpc, -⟩ := h
  exact ⟨hsize, hwf, hinside, hpc, fun _ => hguard⟩

/-- Every schedule keeps memory canonical. -/
theorem State.wf_commit {s : State} (h : s.mem.wf = true) (c : Scheduled) :
    (s.commit c).mem.wf = true := by
  rw [State.commit_mem]
  split
  · exact s.mem.wf_memWrite _ _ h
  · exact h

/-- No instruction lists a byte outside memory: an SW that is carried out is in bounds (R31). -/
theorem State.mem_commit_schedule_inside {s : State} (h : ∀ cell ∈ s.mem, cell.1 < s.memSize)
    (i : Instr) : ∀ cell ∈ (s.commit (schedule i s)).mem, cell.1 < s.memSize := by
  intro cell hcell
  rw [State.commit_mem] at hcell
  split at hcell
  · rename_i ea v hc
    obtain ⟨hb, -⟩ := schedule_eq_store hc
    rcases s.mem.mem_writeBytes _ _ _ hcell with ⟨-, hlt⟩ | hold
    · rw [length_bytesLE] at hlt
      omega
    · exact h cell hold
  · exact h cell hcell

/-- Every instruction leaves an aligned pc aligned (R15). -/
theorem State.pc_commit_schedule_mod_four {s : State} (h : s.pc.toNat % 4 = 0) (i : Instr) :
    (s.commit (schedule i s)).pc.toNat % 4 = 0 := by
  rw [State.commit_pc]
  split
  · rename_i hc
    obtain ⟨-, -, off, -, -, rfl⟩ := schedule_eq_branch hc
    exact toNat_branchTarget_mod_four h off
  · exact h

/-- No schedule of a running machine halts it with OutOfRange. -/
theorem State.commit_halt_ne_outOfRange {s : State} (hrun : s.halt = none) (c : Scheduled) :
    (s.commit c).halt ≠ some .outOfRange := by
  rw [State.commit_halt, hrun]
  split <;> simp

/-- Every instruction keeps the invariant in a running machine. -/
theorem State.inv_commit_schedule {s : State} (h : s.Inv) (hrun : s.halt = none) (i : Instr) :
    (s.commit (schedule i s)).Inv := by
  obtain ⟨hsize, hwf, hinside, hpc, -⟩ := h
  refine ⟨?_, s.wf_commit hwf _, ?_, s.pc_commit_schedule_mod_four hpc i, ?_⟩
  · rwa [State.commit_memSize]
  · rw [State.commit_memSize]
    exact s.mem_commit_schedule_inside hinside i
  · exact fun hhalt => absurd hhalt (s.commit_halt_ne_outOfRange hrun _)

/-- Settles O51: the three ways a step can go (`step_cases`), each stage keeping the invariant. -/
theorem stepKeepsTheInvariant : Obligations.StepKeepsTheInvariant := by
  intro s t hinv hstep
  rcases step_cases hstep with ⟨-, rfl⟩ | ⟨-, hguard, rfl⟩ | ⟨hrun, -, rfl⟩
  · exact hinv
  · exact s.inv_takeHalt_outOfRange hinv hguard
  · exact State.inv_commit_schedule (s.inv_advance hinv hrun) hrun _

/-- The state after reset meets the invariant at every legal size. -/
theorem State.inv_resetWith {n : Nat} (h : Config.LegalMemSize n) : (State.resetWith n).Inv :=
  ⟨h, rfl, by simp, rfl, by simp⟩

/-- Settles O50: memory is empty, the pc is 0 and nothing has halted. -/
theorem resetMeetsTheInvariant : Obligations.ResetMeetsTheInvariant :=
  ⟨State.inv_resetWith (by decide), fun _ h => State.inv_resetWith h⟩

/-- An image lists no address that it does not assign. -/
theorem mem_writeImage {image : List Host.Cell} {m : Memory} {c : Host.Cell}
    (h : c ∈ writeImage image m) : (∃ cell ∈ image, c.1 = cell.1) ∨ c ∈ m := by
  induction image generalizing m with
  | nil => exact .inr h
  | cons cell image ih =>
    rcases ih h with ⟨d, hd, hcd⟩ | hc
    · exact .inl ⟨d, List.mem_cons_of_mem _ hd, hcd⟩
    · exact (m.mem_writeByte _ _ c hc).imp_left fun heq => ⟨cell, List.mem_cons_self, heq⟩

/-- A program has four bytes a word. -/
theorem length_flatMap_bytesBE (program : List Word) :
    (program.flatMap bytesBE).length = 4 * program.length := by
  simp [List.length_flatMap, Nat.mul_comm]

/-- The launch state of a launch that fits meets the invariant. -/
theorem inv_launchState {n : Nat} {image : List Host.Cell} {program : List Word}
    (h : LaunchFits n image program) : (launchState n image program).Inv := by
  obtain ⟨hsize, himage, hprogram⟩ := h
  refine ⟨hsize, Memory.wf_writeBytes _ _ _ (wf_writeImage image [] rfl), ?_, rfl, by simp⟩
  intro c hc
  rw [launchState_memSize]
  rcases Memory.mem_writeBytes _ _ _ c hc with ⟨-, hlt⟩ | hc
  · rw [length_flatMap_bytesBE, Config.loadAddress] at hlt
    omega
  · rcases mem_writeImage hc with ⟨cell, hcell, heq⟩ | hnil
    · exact heq ▸ himage cell hcell
    · exact absurd hnil List.not_mem_nil

/-- The invariant holds of every state a run reaches. -/
theorem Reachable.inv {s : State} (h : Reachable s) : s.Inv := by
  induction h with
  | launched hlaunch =>
    obtain ⟨hfits, rfl⟩ := launch_eq_next_iff.mp hlaunch
    exact inv_launchState hfits
  | stepped _ hstep ih => exact stepKeepsTheInvariant _ _ ih hstep

/-- Settles O53, by induction on the run; the alignment of the pc is a clause of the invariant. -/
theorem reachableStatesMeetTheInvariant : Obligations.ReachableStatesMeetTheInvariant := by
  intro s hs
  obtain ⟨-, -, -, hpc, -⟩ := hs.inv
  exact ⟨hs.inv, Nat.dvd_of_mod_eq_zero hpc⟩

end Sys2Proof.Machine
end

section
/-!
What a step changes: registers (R11, R12), bytes (R39, R93) and the pc (R14, R16, R95); and the first step after
reset (R130).
-/
namespace Sys2Proof.Machine

/-- Settles O9: the register file's own laws, and for an instruction that the only register it can change is a
destination other than 0. -/
theorem registerZeroDiscardsWrites : Obligations.RegisterZeroDiscardsWrites := by
  refine ⟨State.reg_zero, ?_, ?_, ?_⟩
  · intro s i v hi
    simp [State.reg_writeReg, hi]
  · intro s v r
    rfl
  · intro i s t hdest hexec r
    rw [exec_eq_commit_schedule, Host.Outcome.next.injEq] at hexec
    subst hexec
    by_contra hne
    obtain ⟨h0, hr⟩ := dest_of_reg_commit_schedule_ne hne
    exact h0 (Option.some.inj (hr.symm.trans hdest))

/-- Settles O10: neither kind of halted step writes a register, and an instruction writes its destination only. -/
theorem onlyTheDestinationChanges : Obligations.OnlyTheDestinationChanges := by
  intro s t r hstep hne
  rcases step_cases hstep with ⟨-, rfl⟩ | ⟨-, -, rfl⟩ | ⟨hrun, hguard, rfl⟩
  · exact absurd rfl hne
  · exact absurd rfl hne
  · obtain ⟨h0, hdest⟩ := dest_of_reg_commit_schedule_ne hne
    exact ⟨h0, hrun, hguard, hdest⟩

/-- Settles O18: neither kind of halted step stores a byte, and an instruction stores only as an in-bounds SW. -/
theorem onlySwChangesMemory : Obligations.OnlySwChangesMemory := by
  intro s t a hstep hne
  rcases step_cases hstep with ⟨-, rfl⟩ | ⟨-, -, rfl⟩ | ⟨hrun, hguard, rfl⟩
  · exact absurd rfl hne
  · exact absurd rfl hne
  · exact ⟨hrun, hguard, sw_of_byte_commit_schedule_ne (s := s.advance) hne⟩

/-- At a legal memory size the pc of a passed fetch guard is below 2^31, so the advance does not wrap (R16). -/
theorem State.toNat_pc_add_four {s : State} (hsize : Config.LegalMemSize s.memSize)
    (hguard : s.FetchInBounds) : (s.pc + 4#32).toNat = s.pc.toNat + 4 := by
  have hmax : s.memSize ≤ 2147483648 := hsize.2
  rw [BitVec.toNat_add_of_lt]
  · rfl
  · rw [BitVec.toNat_ofNat]
    omega

/-- Settles O25. -/
theorem pcAdvanceNeverWraps : Obligations.PcAdvanceNeverWraps :=
  fun s hsize hguard => ⟨s.toNat_pc_add_four hsize hguard, s.advance_pc⟩

/-- Settles O24: the guard fails and the pc stays; or the pc has advanced, and only a BEQ moves it again. -/
theorem pcAfterEveryStep : Obligations.PcAfterEveryStep := by
  intro s t hrun hstep
  rcases step_cases hstep with ⟨hhalt, -⟩ | ⟨-, hguard, rfl⟩ | ⟨-, hguard, rfl⟩
  · exact absurd hrun hhalt
  · rw [if_pos (Nat.not_lt.mp hguard), State.takeHalt_pc]
  · rw [if_neg (Nat.not_le.mpr hguard)]
    cases decode s.fetchWord with
    | beq rs rt off =>
      simp only [commit_schedule_beq, State.setPc_pc, State.reg_advance, State.advance_pc,
        branchTarget_add_four]
    | add | sub | addi | lw | sw | unimplemented =>
      exact pc_commit_schedule_of_ne_beq s.advance (by simp [Instr.mnemonic])

/-- A machine just reset fetches a zero word (R26, R131). -/
theorem State.fetchWord_resetWith (n : Nat) : (State.resetWith n).fetchWord = 0#32 :=
  show Memory.fetchRead [] 0#32 = 0#32 by decide

/-- The zero word is UNIMPLEMENTED (R58). -/
theorem decode_zero : decode 0#32 = .unimplemented 0#32 := by decide

/-- The first step after reset, with nothing loaded, only advances (R130). -/
theorem step_resetWith {n : Nat} (h : 4 ≤ n) :
    step (State.resetWith n) = .next (State.resetWith n).advance := by
  have hguard : (State.resetWith n).FetchInBounds := show 0 + 3 < n by omega
  rw [step_of_fetch rfl hguard, State.fetchWord_resetWith, decode_zero]
  rfl

/-- Settles O49. -/
theorem resetValues : Obligations.ResetValues :=
  ⟨fun n => ⟨State.reg_resetWith n, State.byte_resetWith n, rfl, rfl, rfl, rfl⟩, rfl,
    fun _ => rfl, fun _ h => step_resetWith h⟩

end Sys2Proof.Machine
end

section
/-!
What an instruction can read: its schedule depends on its source registers and the memory size, and BEQ's on the
pc too (spec/10_state.md rules R12, R14, R19; spec/43_branch.md rule R98).
-/
namespace Sys2Proof.Machine

/-- States of one size that agree on the registers an instruction reads, and on the pc if it is BEQ, schedule the
same (R12, R76). -/
theorem schedule_congr {i : Instr} {s s' : State} (hreg : ∀ r ∈ i.sources, s'.reg r = s.reg r)
    (hsize : s'.memSize = s.memSize) (hpc : i.mnemonic = .beq → s'.pc = s.pc) :
    schedule i s' = schedule i s := by
  cases i with
  | add | sub | addi =>
    simp_all [schedule, scheduleAdd, scheduleSub, scheduleAddi, Instr.sources]
  | lw => simp_all [schedule_lw, Instr.sources]
  | sw => simp_all [schedule_sw, Instr.sources]
  | beq => simp_all [schedule_beq, Instr.sources, Instr.mnemonic]
  | unimplemented => rfl

/-- An instruction with a destination schedules a write of it, unless it schedules the MemoryFault. -/
theorem schedule_writes_dest {i : Instr} {k : RegIdx} (h : i.dest = some k) (s : State) :
    (∃ ea, schedule i s = .memoryFault ea) ∨
      ∀ m, ∃ v, (schedule i s).regWrite? m = some (k, v) := by
  cases i with
  | add | sub | addi =>
    obtain rfl := Option.some.inj h
    exact .inr fun _ => ⟨_, rfl⟩
  | lw rt rs imm =>
    obtain rfl := Option.some.inj h
    rw [schedule_lw]
    split
    · exact .inr fun _ => ⟨_, rfl⟩
    · exact .inl ⟨_, rfl⟩
  | sw | beq | unimplemented => cases h

/-- One schedule carried out in two states of equal memory leaves a register equal where it was equal before. -/
theorem State.reg_commit_congr {s s' : State} (c : Scheduled) {r : RegIdx} (hmem : s'.mem = s.mem)
    (hreg : s'.reg r = s.reg r) : (s'.commit c).reg r = (s.commit c).reg r := by
  rw [State.commit_reg, State.commit_reg, hmem, hreg]

/-- A register that the schedule writes is equal after it, whatever the two states held there. -/
theorem State.reg_commit_eq_of_writes {s s' : State} {c : Scheduled} {k : RegIdx} {v : Word}
    (hmem : s'.mem = s.mem) (hw : c.regWrite? s.mem = some (k, v)) :
    (s'.commit c).reg k = (s.commit c).reg k := by
  by_cases hk : k = 0
  · rw [hk, State.reg_zero, State.reg_zero]
  · rw [State.commit_reg, State.commit_reg, hmem, hw]
    simp [hk]

/-- Settles O11: the two states schedule the same, so they differ after it only where they differed before, and the
register written is equal. -/
theorem onlyTheSourcesAreRead : Obligations.OnlyTheSourcesAreRead := by
  intro i k s s' t t' hk hreg hpc hmem hsize hhalt hcycle ht ht'
  have hsched : schedule i s' = schedule i s :=
    schedule_congr (fun r hr => hreg r (fun heq => hk (heq ▸ hr))) hsize (fun _ => hpc)
  rw [exec_eq_commit_schedule, Host.Outcome.next.injEq] at ht ht'
  rw [hsched] at ht'
  subst ht ht'
  refine ⟨?_, ?_, ?_, ?_, ?_, ?_, ?_⟩
  · rw [State.commit_pc, State.commit_pc, hpc]
  · rw [State.commit_mem, State.commit_mem, hmem]
  · rw [State.commit_memSize, State.commit_memSize, hsize]
  · rw [State.commit_halt, State.commit_halt, hhalt]
  · rw [State.commit_cycle, State.commit_cycle, hcycle]
  · exact fun r hr => State.reg_commit_congr _ hmem (hreg r hr)
  · intro hdest hnofault
    rcases schedule_writes_dest hdest s with ⟨ea, hfault⟩ | hwrites
    · rw [hfault] at hnofault
      exact absurd rfl hnofault
    · obtain ⟨v, hw⟩ := hwrites s.mem
      exact State.reg_commit_eq_of_writes hmem hw

/-- The instruction that another pc and another counter leave: everything but the pc and the counter is as
without them. -/
theorem commit_schedule_with_pc_cycle (i : Instr) (s : State) (p : Word) (c : Nat) :
    ∃ q, ({ s with pc := p, cycle := c } : State).commit
        (schedule i { s with pc := p, cycle := c }) =
      { s.commit (schedule i s) with pc := q, cycle := c } ∧ (i.mnemonic ≠ .beq → q = p) := by
  by_cases hbeq : i.mnemonic = .beq
  · cases i with
    | beq rs rt off =>
      rw [commit_schedule_beq, commit_schedule_beq]
      exact ⟨_, rfl, fun h => absurd rfl h⟩
    | add | sub | addi | lw | sw | unimplemented => cases hbeq
  · have hsched : schedule i { s with pc := p, cycle := c } = schedule i s :=
      schedule_congr (fun _ _ => rfl) rfl (fun h => absurd h hbeq)
    have hpc := pc_commit_schedule_of_ne_beq { s with pc := p, cycle := c } hbeq
    refine ⟨p, ?_, fun _ => rfl⟩
    rw [hsched] at hpc ⊢
    generalize schedule i s = d at hpc ⊢
    cases d with
    | branch target => exact congrArg (State.setPc { s with cycle := c }) hpc
    | nothing | regWrite | load | store | memoryFault => rfl

/-- Settles O12. -/
theorem pcAndCycleAreNotReadable : Obligations.PcAndCycleAreNotReadable := by
  intro i s t t' p c ht ht'
  rw [exec_eq_commit_schedule, Host.Outcome.next.injEq] at ht ht'
  obtain ⟨q, hcommit, hq⟩ := commit_schedule_with_pc_cycle i s p c
  rw [hcommit, ht] at ht'
  subst ht'
  exact ⟨fun _ => rfl, fun _ => rfl, rfl, rfl, rfl, hq⟩

end Sys2Proof.Machine
end

section
/-!
The canonical form of memory: its cells are exactly the bytes that are not 0, so the bytes determine the data
(assumption log 6).
-/
namespace Sys2Proof.Machine

/-- A byte that reads as other than an unlisted one is listed. -/
theorem Memory.mem_of_readByte_ne {m : Memory} {a : Nat} (h : m.readByte a ≠ unlistedByte) :
    (a, m.readByte a) ∈ m := by
  induction m with
  | nil => exact absurd rfl h
  | cons c m ih =>
    obtain ⟨k, b⟩ := c
    rw [Memory.readByte] at h ⊢
    split
    · rename_i hk
      rw [hk]
      exact List.mem_cons_self
    · rename_i hk
      rw [if_neg hk] at h
      exact List.mem_cons_of_mem _ (ih h)

/-- In memory at rising addresses a listed cell is what its address reads as. -/
theorem Memory.readByte_of_mem {m : Memory} (hm : m.Pairwise (fun c d => c.1 < d.1))
    {c : Host.Cell} (h : c ∈ m) : m.readByte c.1 = c.2 := by
  induction m with
  | nil => exact absurd h List.not_mem_nil
  | cons d m ih =>
    obtain ⟨hlt, hm⟩ := List.pairwise_cons.mp hm
    rw [Memory.readByte]
    rcases List.mem_cons.mp h with rfl | h
    · exact if_pos rfl
    · rw [if_neg (hlt c h).ne, ih hm h]

/-- The cells of a canonical memory are its bytes that are not 0. -/
theorem Memory.mem_iff_readByte {m : Memory} (hm : m.wf = true) (c : Host.Cell) :
    c ∈ m ↔ m.readByte c.1 = c.2 ∧ c.2 ≠ unlistedByte := by
  obtain ⟨hrise, hlisted⟩ := m.wf_iff.mp hm
  constructor
  · exact fun h => ⟨Memory.readByte_of_mem hrise h, hlisted c h⟩
  · rintro ⟨hread, hne⟩
    have hmem := Memory.mem_of_readByte_ne (hread ▸ hne)
    rwa [hread] at hmem

/-- Settles O16: the two memories list the same cells, and rising addresses leave one order for them. -/
theorem canonicalMemoryIsItsBytes : Obligations.CanonicalMemoryIsItsBytes := by
  intro m n hm hn hbytes
  obtain ⟨hriseM, -⟩ := m.wf_iff.mp hm
  obtain ⟨hriseN, -⟩ := n.wf_iff.mp hn
  have hsame : ∀ c, c ∈ m ↔ c ∈ n := fun c => by
    rw [Memory.mem_iff_readByte hm, Memory.mem_iff_readByte hn, hbytes]
  have hne : ∀ {c d : Host.Cell}, c.1 < d.1 → c ≠ d := fun hlt heq => hlt.ne (congrArg Prod.fst heq)
  have hperm : m.Perm n := (List.perm_ext_iff_of_nodup (hriseM.imp hne) (hriseN.imp hne)).mpr hsame
  exact hperm.eq_of_pairwise (fun _ _ _ _ h h' => absurd h' h.asymm) hriseM hriseN

end Sys2Proof.Machine
end

section
/-!
The trace record (spec/10_state.md rule R20, spec/40_step_cycle.md rule R79, decision D7): in which steps it is the
record of a fetched word, and which accesses each instruction's schedule reports.
-/
namespace Sys2Proof.Machine

/-- The record of a halted machine's step (R71). -/
theorem traceRecord_of_halted {s : State} {c : HaltCause} (h : s.halt = some c) :
    traceRecord s = haltRecord s c := by
  simp only [traceRecord, h]

/-- The record of a step that the fetch guard stops (R111). -/
theorem traceRecord_of_guard_fails {s : State} (hrun : s.halt = none) (hguard : ¬ s.FetchInBounds) :
    traceRecord s = haltRecord s .outOfRange := by
  simp only [traceRecord, hrun, if_neg hguard]

/-- The record of a step that fetches (R79). -/
theorem traceRecord_of_fetch {s : State} (hrun : s.halt = none) (hguard : s.FetchInBounds) :
    traceRecord s = fetchedRecord s := by
  simp only [traceRecord, hrun, if_pos hguard]

/-- The mnemonics whose execute stage can hand on a schedule of this kind (R76). -/
def Scheduled.ScheduledBy : Scheduled → Mnemonic → Prop
  | .nothing, mn => mn = .beq ∨ mn = .unimplemented
  | .regWrite _ _, mn => mn = .add ∨ mn = .sub ∨ mn = .addi
  | .load _ _, mn => mn = .lw
  | .store _ _, mn => mn = .sw
  | .branch _, mn => mn = .beq
  | .memoryFault _, mn => mn = .lw ∨ mn = .sw

/-- Every instruction's schedule is of a kind its mnemonic can hand on. -/
theorem schedule_scheduledBy (i : Instr) (s : State) :
    (schedule i s).ScheduledBy i.mnemonic := by
  cases i with
  | add => exact .inl rfl
  | sub => exact .inr (.inl rfl)
  | addi => exact .inr (.inr rfl)
  | lw rt rs imm =>
    rw [schedule_lw]
    split
    · rfl
    · exact .inl rfl
  | sw rt rs imm =>
    rw [schedule_sw]
    split
    · rfl
    · exact .inr rfl
  | beq rs rt off =>
    rw [schedule_beq]
    split
    · rfl
    · exact .inl rfl
  | unimplemented => exact .inr rfl

/-- A load is scheduled in bounds only. -/
theorem inBounds_of_schedule_eq_load {i : Instr} {s : State} {q : RegIdx} {ea : Word}
    (h : schedule i s = .load q ea) : InBounds4 s.memSize ea := by
  have hlw : (Scheduled.load q ea).ScheduledBy i.mnemonic := h ▸ schedule_scheduledBy i s
  cases i with
  | lw rt rs imm =>
    rw [schedule_lw] at h
    split at h
    · rename_i hb
      exact (Scheduled.load.inj h).2 ▸ hb
    · cases h
  | add | sub | addi | sw | beq | unimplemented => cases hlw

/-- The record's `memRead` is the address of a scheduled load and the word there, in bounds. -/
theorem inBounds_of_memRead?_schedule {i : Instr} {s : State} {m : Memory} {a v : Word}
    (h : (schedule i s).memRead? m = some (a, v)) : InBounds4 s.memSize a ∧ v = m.memRead a := by
  cases hc : schedule i s with
  | load q ea =>
    rw [hc, Scheduled.memRead?, Option.some.injEq, Prod.mk.injEq] at h
    obtain ⟨rfl, rfl⟩ := h
    exact ⟨inBounds_of_schedule_eq_load hc, rfl⟩
  | nothing | regWrite | store | branch | memoryFault =>
    rw [hc] at h
    cases h

section
variable {c : Scheduled} {mn : Mnemonic}

/-- A data write is reported exactly when an SW completes (R20, R79). -/
theorem memWrite?_ne_none_iff (h : c.ScheduledBy mn) :
    c.memWrite? ≠ none ↔ mn = .sw ∧ c.verdict = .continue := by
  cases c with
  | store ea v => exact ⟨fun _ => ⟨h, rfl⟩, fun _ => Option.some_ne_none _⟩
  | memoryFault ea => simp [Scheduled.memWrite?, Scheduled.verdict]
  | nothing | regWrite | load | branch =>
    have hne : mn ≠ .sw := by rintro rfl; simp [Scheduled.ScheduledBy] at h
    simp [Scheduled.memWrite?, hne]

/-- A data read is reported exactly when an LW completes (R20, R79). -/
theorem memRead?_ne_none_iff (h : c.ScheduledBy mn) (m : Memory) :
    c.memRead? m ≠ none ↔ mn = .lw ∧ c.verdict = .continue := by
  cases c with
  | load q ea => exact ⟨fun _ => ⟨h, rfl⟩, fun _ => Option.some_ne_none _⟩
  | memoryFault ea => simp [Scheduled.memRead?, Scheduled.verdict]
  | nothing | regWrite | store | branch =>
    have hne : mn ≠ .lw := by rintro rfl; simp [Scheduled.ScheduledBy] at h
    simp [Scheduled.memRead?, hne]

/-- A register write is reported exactly when ADD, SUB, ADDI or LW completes (R20, R79). -/
theorem regWrite?_ne_none_iff (h : c.ScheduledBy mn) (m : Memory) :
    c.regWrite? m ≠ none ↔
      (mn = .add ∨ mn = .sub ∨ mn = .addi ∨ mn = .lw) ∧ c.verdict = .continue := by
  cases c with
  | regWrite q v =>
    have hmn : mn = .add ∨ mn = .sub ∨ mn = .addi ∨ mn = .lw := h.imp_right (Or.imp_right .inl)
    exact ⟨fun _ => ⟨hmn, rfl⟩, fun _ => Option.some_ne_none _⟩
  | load q ea => exact ⟨fun _ => ⟨.inr (.inr (.inr h)), rfl⟩, fun _ => Option.some_ne_none _⟩
  | memoryFault ea => simp [Scheduled.regWrite?, Scheduled.verdict]
  | nothing | store | branch =>
    have hne : ¬ (mn = .add ∨ mn = .sub ∨ mn = .addi ∨ mn = .lw) := by
      rintro (rfl | rfl | rfl | rfl) <;> simp [Scheduled.ScheduledBy] at h
    simp [Scheduled.regWrite?, hne]

end

/-- Memory after a schedule is what the record's `memWrite` stores (R79). -/
theorem State.commit_mem_eq_memWrite? (s : State) (c : Scheduled) :
    (s.commit c).mem =
      match c.memWrite? with
      | some (a, v) => s.mem.memWrite a v
      | none => s.mem := by cases c <;> rfl

/-- The verdict of a schedule tells the halt it leaves in a running machine. -/
theorem verdict_eq_of_commit_halt {s : State} (hrun : s.halt = none) (c : Scheduled) :
    c.verdict = match (s.commit c).halt with | none => .continue | some d => .halt d := by
  rw [State.commit_halt, hrun]
  cases c <;> rfl

/-- Settles O28: a step that fetches nothing reports no access; a step that fetches reports its schedule, which is
what it carries out (`State.commit_reg`, `State.commit_mem_eq_memWrite?`, `verdict_eq_of_commit_halt`). -/
theorem traceRecordTellsTheStep : Obligations.TraceRecordTellsTheStep := by
  intro s t hstep
  rcases step_cases hstep with ⟨hhalt, rfl⟩ | ⟨hrun, hguard, rfl⟩ | ⟨hrun, hguard, rfl⟩
  · obtain ⟨c, hc⟩ := Option.ne_none_iff_exists'.mp hhalt
    rw [traceRecord_of_halted hc]
    simp [haltRecord, hc]
  · rw [traceRecord_of_guard_fails hrun hguard]
    simp [haltRecord, hguard]
  · rw [traceRecord_of_fetch hrun hguard]
    have hkind := schedule_scheduledBy (decode s.fetchWord) s.advance
    refine ⟨?_, rfl, ?_, rfl, ?_, ?_, ?_, ?_, ?_, ?_, ?_⟩
    · exact (State.commit_cycle _ _).symm
    · exact (if_pos ⟨hrun, hguard⟩).symm
    · exact verdict_eq_of_commit_halt (s := s.advance) hrun _
    · exact State.commit_reg _ _
    · exact State.commit_mem_eq_memWrite? _ _
    · exact fun a v hread => inBounds_of_memRead?_schedule (s := s.advance) hread
    · simpa [fetchedRecord] using memWrite?_ne_none_iff hkind
    · simpa [fetchedRecord] using memRead?_ne_none_iff hkind s.mem
    · simpa [fetchedRecord] using regWrite?_ne_none_iff hkind s.mem

end Sys2Proof.Machine
end

section
/-!
The word accesses (spec/20_memory.md rules R32 to R36): four bytes written at an address and read back as a word by
either path, and the order each path lays them down in.
-/
namespace Sys2Proof.Machine

/-- A byte inside a block just written is the block's. -/
theorem Memory.readByte_writeBytes_add (m : Memory) (a : Nat) {bs : List Byte} {k : Nat}
    (h : k < bs.length) : (m.writeBytes a bs).readByte (a + k) = bs[k] := by
  rw [Memory.readByte_writeBytes, dif_pos (by omega)]
  congr 1
  omega

/-- A byte outside a block just written is unchanged. -/
theorem Memory.readByte_writeBytes_outside (m : Memory) {a x : Nat} {bs : List Byte}
    (h : x < a ∨ a + bs.length ≤ x) : (m.writeBytes a bs).readByte x = m.readByte x := by
  rw [Memory.readByte_writeBytes, dif_neg (by omega)]

section
variable (m : Memory) (a w : Word)

/-- Byte `k` that the loader's word store lays down, most significant first (R33). -/
theorem Memory.readByte_loaderWrite_add {k : Nat} (hk : k < (bytesBE w).length) :
    (m.loaderWrite a w).readByte (a.toNat + k) = (bytesBE w)[k] :=
  m.readByte_writeBytes_add a.toNat hk

/-- Byte `k` that a data word store lays down, least significant first (R35). -/
theorem Memory.readByte_memWrite_add {k : Nat} (hk : k < (bytesLE w).length) :
    (m.memWrite a w).readByte (a.toNat + k) = (bytesLE w)[k] :=
  m.readByte_writeBytes_add a.toNat hk

/-- Four bytes written and fetched as an instruction are read most significant first (R32). -/
theorem Memory.fetchRead_writeBytes (b0 b1 b2 b3 : Byte) :
    (m.writeBytes a.toNat [b0, b1, b2, b3]).fetchRead a = wordBE b0 b1 b2 b3 := by
  simp [Memory.fetchRead, Memory.readByte_writeBytes4]

/-- Four bytes written and read as data are read least significant first (R34). -/
theorem Memory.memRead_writeBytes (b0 b1 b2 b3 : Byte) :
    (m.writeBytes a.toNat [b0, b1, b2, b3]).memRead a = wordLE b0 b1 b2 b3 := by
  simp [Memory.memRead, Memory.readByte_writeBytes4]

/-- An instruction word stored by the loader is fetched as it is (R32, R33). -/
theorem Memory.fetchRead_loaderWrite : (m.loaderWrite a w).fetchRead a = w :=
  (m.fetchRead_writeBytes a _ _ _ _).trans (wordBE_extract w)

/-- A data word stored is read as it is (R34, R35). -/
theorem Memory.memRead_memWrite : (m.memWrite a w).memRead a = w :=
  (m.memRead_writeBytes a _ _ _ _).trans (wordBE_extract w)

/-- A data word stored and fetched as an instruction is seen byte-reversed (R36). -/
theorem Memory.fetchRead_memWrite : (m.memWrite a w).fetchRead a =
    w.extractLsb' 0 8 ++ w.extractLsb' 8 8 ++ w.extractLsb' 16 8 ++ w.extractLsb' 24 8 :=
  m.fetchRead_writeBytes a _ _ _ _

/-- An instruction word stored by the loader and read as data is seen byte-reversed (R36). -/
theorem Memory.memRead_loaderWrite : (m.loaderWrite a w).memRead a =
    w.extractLsb' 0 8 ++ w.extractLsb' 8 8 ++ w.extractLsb' 16 8 ++ w.extractLsb' 24 8 :=
  m.memRead_writeBytes a _ _ _ _

end

/-- Storing the data word read at `a` copies its four bytes: the read and the store use one order (R36). -/
theorem Memory.readByte_memWrite_memRead (m : Memory) (a b : Word) {k : Nat} (hk : k < 4) :
    (m.memWrite b (m.memRead a)).readByte (b.toNat + k) = m.readByte (a.toNat + k) := by
  have hbytes : bytesLE (m.memRead a) = [m.readByte a.toNat, m.readByte (a.toNat + 1),
      m.readByte (a.toNat + 2), m.readByte (a.toNat + 3)] := bytesLE_wordLE _ _ _ _
  have hlen : k < (bytesLE (m.memRead a)).length := hk
  rw [Memory.readByte_memWrite_add m b _ hlen, List.getElem_of_eq hbytes]
  match k, hk with
  | 0, _ | 1, _ | 2, _ | 3, _ => rfl

/-- Settles O13: the loader's store is a block of four bytes, most significant first. -/
theorem instructionWordRoundTrip : Obligations.InstructionWordRoundTrip := by
  intro m a w
  have hbyte (k : Nat) (hk : k < 4) := m.readByte_loaderWrite_add a w (k := k) hk
  exact ⟨toNat_wordBE _ _ _ _, hbyte 0 (by decide), hbyte 1 (by decide), hbyte 2 (by decide),
    hbyte 3 (by decide), fun _ hx => m.readByte_writeBytes_outside hx, m.fetchRead_loaderWrite a w⟩

/-- Settles O14: the data store is a block of four bytes, least significant first, and the data read is the big-endian
reading of the bytes in the other order. -/
theorem dataWordRoundTrip : Obligations.DataWordRoundTrip := by
  intro m a w
  have hbyte (k : Nat) (hk : k < 4) := m.readByte_memWrite_add a w (k := k) hk
  have hvalue := toNat_wordBE (m.readByte (a.toNat + 3)) (m.readByte (a.toNat + 2))
    (m.readByte (a.toNat + 1)) (m.readByte a.toNat)
  refine ⟨?_, hbyte 0 (by decide), hbyte 1 (by decide), hbyte 2 (by decide), hbyte 3 (by decide),
    fun _ hx => m.readByte_writeBytes_outside hx, m.memRead_memWrite a w⟩
  rw [Memory.memRead, wordLE_eq_wordBE, hvalue]
  omega

/-- Settles O15: each path reads what the other stored in the other order; a copy by the data path uses one order
twice. -/
theorem mixedAccessReversesTheBytes : Obligations.MixedAccessReversesTheBytes :=
  ⟨Memory.fetchRead_memWrite, Memory.memRead_loaderWrite,
    fun m a b _ hk => m.readByte_memWrite_memRead a b hk⟩

/-- At a size up to 2^31 an address in bounds has its sign bit clear, so both readings of it bound it alike (R31). -/
theorem inBounds4_iff_toInt {n : Nat} (hn : n ≤ 2 ^ 31) (a : Word) :
    InBounds4 n a ↔ 0 ≤ a.toInt ∧ a.toInt + 3 < (n : Int) := by
  have := a.isLt
  rw [BitVec.toInt_eq_toNat_cond]
  split <;> omega

/-- Settles O17: the last of the four bytes bounds the others, and no address in bounds is negative
(`inBounds4_iff_toInt`). -/
theorem boundsPredicate : Obligations.BoundsPredicate := by
  refine ⟨fun _ _ => Iff.rfl, fun n a => ⟨?_, fun h => h 3 (by decide)⟩,
    fun _ a hn => inBounds4_iff_toInt hn a, fun a => ?_⟩
  · intro hlast k hk
    omega
  · omega

end Sys2Proof.Machine
end

section
/-!
LW and SW that are in bounds, carried out (spec/42_load_store.md rules R91, R92), and a stored word seen by the next
access (spec/20_memory.md rules R43 and R46, spec/70_reset_and_hazards.md rule R139).
-/
namespace Sys2Proof.Machine

/-- In bounds LW is one register write, of the data word at its address (R91). -/
theorem exec_lw_of_inBounds {rt rs : RegIdx} {imm : Imm16} {s : State}
    (h : InBounds4 s.memSize (effectiveAddress (s.reg rs) imm)) :
    exec (.lw rt rs imm) s =
      .next (s.writeReg rt (s.mem.memRead (effectiveAddress (s.reg rs) imm))) := by
  rw [exec_eq_commit_schedule, schedule_lw_of_inBounds h]
  rfl

/-- In bounds SW is one data word store (R92). -/
theorem exec_sw_of_inBounds {rt rs : RegIdx} {imm : Imm16} {s : State}
    (h : InBounds4 s.memSize (effectiveAddress (s.reg rs) imm)) :
    exec (.sw rt rs imm) s = .next (s.storeWord (effectiveAddress (s.reg rs) imm) (s.reg rt)) := by
  rw [exec_eq_commit_schedule, schedule_sw_of_inBounds h]
  rfl

/-- The step of an SW word that is in bounds: the pc advance and the store (R70, R92). -/
theorem step_sw_of_inBounds {s : State} {w : Word} (hfetch : s.Fetches w)
    (hsw : Mnemonic.sw.Matches w)
    (h : InBounds4 s.memSize (effectiveAddress (s.reg (rsOf w)) (imm16Of w))) :
    step s = .next (s.advance.storeWord (effectiveAddress (s.reg (rsOf w)) (imm16Of w))
      (s.reg (rtOf w))) := by
  obtain ⟨hrun, hguard, rfl⟩ := hfetch
  rw [step_of_fetch hrun hguard, decode_of_matches_sw hsw,
    schedule_sw_of_inBounds (s := s.advance) h]
  rfl

/-- Settles O19: the SW's step leaves the stored word in memory, where a fetch reads it byte-reversed
(`Memory.fetchRead_memWrite`), and the next fetch is at the advanced pc. -/
theorem storeIsSeenByTheNextFetch : Obligations.StoreIsSeenByTheNextFetch := by
  intro s w hfetch hsw hb
  refine ⟨_, step_sw_of_inBounds hfetch hsw hb, Memory.fetchRead_memWrite _ _ _, fun hnext => ?_⟩
  rw [State.fetchWord, State.storeWord_pc, State.advance_pc, ← hnext]
  exact Memory.fetchRead_memWrite _ _ _

/-- Settles O20: the store changes no register and no size, so the LW is in bounds at the same address and reads the
stored word back (`Memory.memRead_memWrite`). -/
theorem loadAfterStoreSeesTheValue : Obligations.LoadAfterStoreSeesTheValue := by
  intro s rt rs rt' rs' imm imm' hrt hb hea
  have hload : InBounds4 s.memSize (effectiveAddress (s.reg rs') imm') := by rwa [hea]
  refine ⟨_, _, exec_sw_of_inBounds hb, exec_lw_of_inBounds hload, ?_⟩
  rw [State.reg_writeReg, if_pos ⟨rfl, hrt⟩, State.reg_storeWord, hea, State.storeWord_mem,
    Memory.memRead_memWrite]

end Sys2Proof.Machine
end

section
/-!
Words as numbers: the fields of a word (spec/30_encoding.md rule R51), the word from its fields, and the words the
encoder builds (R61).
-/
namespace Sys2Proof

section Fields
variable (w : Word)

theorem toNat_opcodeOf : (opcodeOf w).toNat = w.toNat / 2 ^ 26 := by
  rw [opcodeOf, BitVec.extractLsb'_toNat, Nat.shiftRight_eq_div_pow]
  omega

theorem val_rsOf : (rsOf w).val = w.toNat / 2 ^ 21 % 2 ^ 5 := by
  rw [← Nat.shiftRight_eq_div_pow]
  rfl

theorem val_rtOf : (rtOf w).val = w.toNat / 2 ^ 16 % 2 ^ 5 := by
  rw [← Nat.shiftRight_eq_div_pow]
  rfl

theorem val_rdOf : (rdOf w).val = w.toNat / 2 ^ 11 % 2 ^ 5 := by
  rw [← Nat.shiftRight_eq_div_pow]
  rfl

theorem toNat_shamtOf : (shamtOf w).toNat = w.toNat / 2 ^ 6 % 2 ^ 5 := by
  rw [← Nat.shiftRight_eq_div_pow]
  rfl

theorem toNat_functOf : (functOf w).toNat = w.toNat % 2 ^ 6 := rfl

theorem toNat_imm16Of : (imm16Of w).toNat = w.toNat % 2 ^ 16 := rfl

/-- A word is the sum of the fields of its R-type reading, each at its place (R52). -/
theorem toNat_eq_fieldsR : w.toNat =
    (opcodeOf w).toNat * 2 ^ 26 + (rsOf w).val * 2 ^ 21 + (rtOf w).val * 2 ^ 16 +
      (rdOf w).val * 2 ^ 11 + (shamtOf w).toNat * 2 ^ 6 + (functOf w).toNat := by
  rw [toNat_opcodeOf, val_rsOf, val_rtOf, val_rdOf, toNat_shamtOf, toNat_functOf]
  omega

/-- A word is the sum of the fields of its I-type reading, each at its place (R53). -/
theorem toNat_eq_fieldsI : w.toNat =
    (opcodeOf w).toNat * 2 ^ 26 + (rsOf w).val * 2 ^ 21 + (rtOf w).val * 2 ^ 16 +
      (imm16Of w).toNat := by
  rw [toNat_opcodeOf, val_rsOf, val_rtOf, toNat_imm16Of]
  omega

end Fields

/-- `enc_R` of R61 as a number: the word has the fields that were put there. -/
theorem toNat_encR (funct : BitVec 6) (rd rs rt : RegIdx) (shamt : Shamt) :
    (encR funct rd rs rt shamt).toNat =
      rs.val * 2 ^ 21 + rt.val * 2 ^ 16 + rd.val * 2 ^ 11 + shamt.toNat * 2 ^ 6 + funct.toNat := by
  simpa using toNat_eq_fieldsR (encR funct rd rs rt shamt)

/-- `enc_I` of R61 as a number. -/
theorem toNat_encI (opcode : BitVec 6) (rs rt : RegIdx) (imm : Imm16) :
    (encI opcode rs rt imm).toNat =
      opcode.toNat * 2 ^ 26 + rs.val * 2 ^ 21 + rt.val * 2 ^ 16 + imm.toNat := by
  simpa using toNat_eq_fieldsI (encI opcode rs rt imm)

/-- An R-type word is built back from its fields. -/
theorem encR_fields {w : Word} {funct : BitVec 6} (hop : opcodeOf w = 0x00#6)
    (hfunct : functOf w = funct) : encR funct (rdOf w) (rsOf w) (rtOf w) (shamtOf w) = w := by
  apply BitVec.eq_of_toNat_eq
  rw [toNat_encR, toNat_eq_fieldsR w, hop, hfunct]
  simp

/-- Every word is built back from the fields of its I-type reading. -/
theorem encI_fields {w : Word} {opcode : BitVec 6} (hop : opcodeOf w = opcode) :
    encI opcode (rsOf w) (rtOf w) (imm16Of w) = w := by
  apply BitVec.eq_of_toNat_eq
  rw [toNat_encI, toNat_eq_fieldsI w, hop]

/-- Settles O5: the encoder's words are `enc_R` with `shamt` 0 and `enc_I`. -/
theorem encodingFollowsTheFormulas : Obligations.EncodingFollowsTheFormulas := by
  refine ⟨?_, ?_, fun _ _ _ => toNat_encI _ _ _ _, fun _ _ _ => toNat_encI _ _ _ _,
    fun _ _ _ => toNat_encI _ _ _ _, fun _ _ _ => toNat_encI _ _ _ _⟩
  · intro rd rs rt
    simp [encode, toNat_encR]
  · intro rd rs rt
    simp [encode, toNat_encR]

end Sys2Proof
end

section
/-!
Decode and encode (spec/30_encoding.md rules R55, R61): everything decode can answer, the two round trips, and the
opcode map.
-/
namespace Sys2Proof

/-- A word that is none of the six decodes to UNIMPLEMENTED, and the word is kept (R100; log 13). -/
theorem decode_of_isUnimplementedWord {w : Word} (h : isUnimplementedWord w = true) :
    decode w = .unimplemented w := by
  rcases (isUnimplementedWord_iff w).mp h with ⟨h00, h04, h08, h23, h2B⟩ | ⟨h00, h20, h22⟩
  · simp [decode, h00, h04, h08, h23, h2B]
  · simp [decode, h00, h20, h22]

/-- Everything decode can answer: the instruction of the row the word matches, or UNIMPLEMENTED (R55). -/
theorem decode_cases (w : Word) :
    (Mnemonic.add.Matches w ∧ decode w = .add (rdOf w) (rsOf w) (rtOf w) (shamtOf w)) ∨
    (Mnemonic.sub.Matches w ∧ decode w = .sub (rdOf w) (rsOf w) (rtOf w) (shamtOf w)) ∨
    (Mnemonic.addi.Matches w ∧ decode w = .addi (rtOf w) (rsOf w) (imm16Of w)) ∨
    (Mnemonic.lw.Matches w ∧ decode w = .lw (rtOf w) (rsOf w) (imm16Of w)) ∨
    (Mnemonic.sw.Matches w ∧ decode w = .sw (rtOf w) (rsOf w) (imm16Of w)) ∨
    (Mnemonic.beq.Matches w ∧ decode w = .beq (rsOf w) (rtOf w) (imm16Of w)) ∨
    (isUnimplementedWord w = true ∧ decode w = .unimplemented w) := by
  rw [matches_add, matches_sub, matches_addi, matches_lw, matches_sw, matches_beq,
    isUnimplementedWord_iff]
  unfold decode
  split_ifs with h00 h20 h22 h08 h23 h2B h04
  · exact .inl ⟨⟨h00, h20⟩, rfl⟩
  · exact .inr (.inl ⟨⟨h00, h22⟩, rfl⟩)
  · exact .inr (.inr (.inr (.inr (.inr (.inr ⟨.inr ⟨h00, h20, h22⟩, rfl⟩)))))
  · exact .inr (.inr (.inl ⟨h08, rfl⟩))
  · exact .inr (.inr (.inr (.inl ⟨h23, rfl⟩)))
  · exact .inr (.inr (.inr (.inr (.inl ⟨h2B, rfl⟩))))
  · exact .inr (.inr (.inr (.inr (.inr (.inl ⟨h04, rfl⟩)))))
  · exact .inr (.inr (.inr (.inr (.inr (.inr ⟨.inl ⟨h00, h04, h08, h23, h2B⟩, rfl⟩)))))

/-- Settles O1: the fields of an encoded word are what was put there (`opcodeOf_encR`, `opcodeOf_encI` and the lemmas
beside them), so decode's tests pick the constructor's own row and its operands come back. -/
theorem decodeEncodeRoundTrip : Obligations.DecodeEncodeRoundTrip := by
  intro i hwf
  cases i with
  | add | sub | addi | lw | sw | beq => simp [encode, decode]
  | unimplemented w => exact decode_of_isUnimplementedWord hwf

/-- Settles O2: decode puts every field of the word into an operand, and the encoder puts each back at its place
(`encR_fields`, `encI_fields`). -/
theorem encodeDecodeRoundTrip : Obligations.EncodeDecodeRoundTrip := by
  intro w
  rcases decode_cases w with ⟨h, hd⟩ | ⟨h, hd⟩ | ⟨h, hd⟩ | ⟨h, hd⟩ | ⟨h, hd⟩ | ⟨h, hd⟩ | ⟨h, hd⟩ <;>
    rw [hd]
  · obtain ⟨h00, h20⟩ := (matches_add w).mp h
    exact ⟨rfl, encR_fields h00 h20⟩
  · obtain ⟨h00, h22⟩ := (matches_sub w).mp h
    exact ⟨rfl, encR_fields h00 h22⟩
  · exact ⟨rfl, encI_fields ((matches_addi w).mp h)⟩
  · exact ⟨rfl, encI_fields ((matches_lw w).mp h)⟩
  · exact ⟨rfl, encI_fields ((matches_sw w).mp h)⟩
  · exact ⟨rfl, encI_fields ((matches_beq w).mp h)⟩
  · exact ⟨h, rfl⟩

/-- Settles O4: the fields as numbers, and each row's operands as `decode_cases` gives them. -/
theorem fieldsAreTheWordsBits : Obligations.FieldsAreTheWordsBits := by
  intro w
  refine ⟨toNat_opcodeOf w, val_rsOf w, val_rtOf w, val_rdOf w, toNat_shamtOf w, toNat_functOf w,
    toNat_imm16Of w, ?_⟩
  rcases decode_cases w with ⟨-, hd⟩ | ⟨-, hd⟩ | ⟨-, hd⟩ | ⟨-, hd⟩ | ⟨-, hd⟩ | ⟨-, hd⟩ | ⟨-, hd⟩ <;>
    simp [hd]

/-- A word that matches one of the six rows decodes to that row's mnemonic (R55). -/
theorem mnemonic_decode_of_matches {w : Word} {m : Mnemonic} (hm : m ≠ .unimplemented)
    (h : m.Matches w) : (decode w).mnemonic = m := by
  cases m with
  | add => rw [decode_of_matches_add h]; rfl
  | sub => rw [decode_of_matches_sub h]; rfl
  | addi => rw [decode_of_matches_addi h]; rfl
  | lw => rw [decode_of_matches_lw h]; rfl
  | sw => rw [decode_of_matches_sw h]; rfl
  | beq => rw [decode_of_matches_beq h]; rfl
  | unimplemented => exact absurd rfl hm

/-- Every word matches the row of the mnemonic it decodes to (R55). -/
theorem matches_mnemonic_decode (w : Word) : (decode w).mnemonic.Matches w := by
  rcases decode_cases w with ⟨h, hd⟩ | ⟨h, hd⟩ | ⟨h, hd⟩ | ⟨h, hd⟩ | ⟨h, hd⟩ | ⟨h, hd⟩ | ⟨-, hd⟩ <;>
    rw [hd]
  exacts [h, h, h, h, h, h, matches_unimplemented w]

/-- A word decodes to one of the six exactly when it matches its row (R55). -/
theorem mnemonic_decode_eq_iff {w : Word} {m : Mnemonic} (hm : m ≠ .unimplemented) :
    (decode w).mnemonic = m ↔ m.Matches w :=
  ⟨fun h => h ▸ matches_mnemonic_decode w, mnemonic_decode_of_matches hm⟩

theorem opcodeOf_eq_iff (w : Word) (c : BitVec 6) : opcodeOf w = c ↔ w.toNat / 2 ^ 26 = c.toNat := by
  rw [← BitVec.toNat_inj, toNat_opcodeOf]

theorem functOf_eq_iff (w : Word) (c : BitVec 6) : functOf w = c ↔ w.toNat % 2 ^ 6 = c.toNat := by
  rw [← BitVec.toNat_inj, toNat_functOf]

/-- Settles O3: a word matches the row of its own mnemonic and of no other of the six (`mnemonic_decode_eq_iff`), and
decode's tests of the opcode and the funct are tests of the word's number. -/
theorem decodeFollowsTheOpcodeMap : Obligations.DecodeFollowsTheOpcodeMap := by
  refine ⟨fun w m hm => mnemonic_decode_eq_iff hm, fun w => ⟨?_, ?_⟩, ?_, fun w => ?_⟩
  · intro hnone m hm hrow
    exact hm ((mnemonic_decode_of_matches hm hrow).symm.trans hnone)
  · intro hnone
    by_contra hne
    exact hnone _ hne (matches_mnemonic_decode w)
  · intro w m n hm hn hrow hrow'
    exact (mnemonic_decode_of_matches hm hrow).symm.trans (mnemonic_decode_of_matches hn hrow')
  · simp only [decode, opcodeOf_eq_iff, functOf_eq_iff, apply_ite Instr.mnemonic]
    rfl

end Sys2Proof
end

section
/-!
What two of the fields mean: `shamt` nothing, since no instruction uses it (spec/30_encoding.md rule R56, decision D11);
the immediate a signed number (R54).
-/
namespace Sys2Proof.Machine

/-- Words that agree under a mask agree in every field that the mask keeps whole. -/
theorem extractLsb'_eq_of_and_eq {w v mask : Word} {start len : Nat}
    (h : w &&& mask = v &&& mask) (hkeeps : mask.extractLsb' start len = BitVec.allOnes len) :
    v.extractLsb' start len = w.extractLsb' start len := by
  have hfield := congrArg (BitVec.extractLsb' start len) h
  rw [BitVec.extractLsb'_and, BitVec.extractLsb'_and, hkeeps, BitVec.and_allOnes,
    BitVec.and_allOnes] at hfield
  exact hfield.symm

/-- Settles O6: the two words agree in every field but `shamt`, and neither meaning reads that operand. -/
theorem shamtIsIgnored : Obligations.ShamtIsIgnored := by
  intro w v hmask hrow
  have hop : opcodeOf v = opcodeOf w := extractLsb'_eq_of_and_eq hmask (by decide)
  have hfunct : functOf v = functOf w := extractLsb'_eq_of_and_eq hmask (by decide)
  have hrs : rsOf v = rsOf w := congrArg regOfField (extractLsb'_eq_of_and_eq hmask (by decide))
  have hrt : rtOf v = rtOf w := congrArg regOfField (extractLsb'_eq_of_and_eq hmask (by decide))
  have hrd : rdOf v = rdOf w := congrArg regOfField (extractLsb'_eq_of_and_eq hmask (by decide))
  rcases hrow with hrow | hrow
  · have hrow' : Mnemonic.add.Matches v := by rwa [matches_add, hop, hfunct, ← matches_add]
    rw [decode_of_matches_add hrow, decode_of_matches_add hrow', hrs, hrt, hrd]
    exact ⟨rfl, fun _ => rfl⟩
  · have hrow' : Mnemonic.sub.Matches v := by rwa [matches_sub, hop, hfunct, ← matches_sub]
    rw [decode_of_matches_sub hrow, decode_of_matches_sub hrow', hrs, hrt, hrd]
    exact ⟨rfl, fun _ => rfl⟩

/-- Sign extension fills the upper half with the sign bit (R54). -/
theorem sext32_eq (imm : Imm16) :
    sext32 imm =
      if imm.getLsbD 15 then 0xFFFF0000#32 ||| imm.setWidth 32 else imm.setWidth 32 := by
  have hmsb : imm.msb = imm.getLsbD 15 := BitVec.msb_eq_getLsbD_last imm
  split
  · rename_i hneg
    ext i hi
    interval_cases i <;> simp [sext32, BitVec.getElem_signExtend, hmsb, hneg]
  · rename_i hneg
    exact BitVec.signExtend_eq_setWidth_of_msb_false (hmsb.trans (Bool.eq_false_of_not_eq_true hneg))

/-- Sign extension keeps the signed value (R54). -/
theorem toInt_sext32 (imm : Imm16) : (sext32 imm).toInt = imm.toInt :=
  BitVec.toInt_signExtend_of_le (by decide)

/-- BEQ's offset is four times the signed immediate: 18 bits hold it, so the shift loses nothing (R54). -/
theorem toInt_sext32_shiftLeft_two (imm : Imm16) : (sext32 imm <<< 2).toInt = 4 * imm.toInt := by
  have hlow := imm.le_toInt
  have hhigh := imm.toInt_lt
  rw [sext32_shiftLeft_two, BitVec.toInt_ofInt]
  apply Int.bmod_eq_of_le <;> omega

/-- Settles O8: the bits of the extended immediate, its signed value, and BEQ's offset. -/
theorem immediateIsSignExtended : Obligations.ImmediateIsSignExtended :=
  fun imm => ⟨sext32_eq imm, toInt_sext32 imm, toInt_sext32_shiftLeft_two imm⟩

end Sys2Proof.Machine
end

section
/-!
Zeroed memory as a program (spec/30_encoding.md rule R58, spec/44_unimplemented.md rule R100): each step only advances,
until the fetch guard ends the run (R111, R138).
-/
namespace Sys2Proof.Machine

/-- A step that the fetch guard stops (R111). -/
theorem step_of_guard_fails {s : State} (hrun : s.halt = none) (hguard : ¬ s.FetchInBounds) :
    step s = .next (s.takeHalt .outOfRange) := by
  simp only [step, State.fetchStages, hrun, if_neg hguard]

/-- The step of a fetched UNIMPLEMENTED word only advances (R100). -/
theorem step_of_unimplemented {s : State} {w : Word} (hfetch : s.Fetches w)
    (hdecode : decode w = .unimplemented w) : step s = .next s.advance := by
  obtain ⟨hrun, hguard, rfl⟩ := hfetch
  rw [step_of_fetch hrun hguard, hdecode]
  rfl

/-- All bytes from the pc on are zero. -/
def State.ZeroFromPc (s : State) : Prop := ∀ a : Nat, s.pc.toNat ≤ a → s.byte a = 0#8

/-- The word at the pc of zeroed memory is zero. -/
theorem State.ZeroFromPc.fetchWord {s : State} (h : s.ZeroFromPc) : s.fetchWord = 0#32 := by
  have hbyte (k : Nat) : s.mem.readByte (s.pc.toNat + k) = 0#8 := h _ (Nat.le_add_right _ k)
  have hfirst : s.mem.readByte s.pc.toNat = 0#8 := hbyte 0
  rw [State.fetchWord, Memory.fetchRead, hfirst, hbyte 1, hbyte 2, hbyte 3]
  rfl

/-- The state `n` pc advances later: only the pc and the counter differ. -/
def State.advanceBy (s : State) (n : Nat) : State :=
  { s with pc := s.pc + BitVec.ofNat 32 (4 * n), cycle := s.cycle + n }

theorem State.advanceBy_zero (s : State) : s.advanceBy 0 = s := by
  simp [State.advanceBy]

/-- One advance after `n` of them. -/
theorem State.advance_advanceBy (s : State) (n : Nat) :
    (s.advanceBy n).advance = s.advanceBy (n + 1) := by
  have hpc : s.pc + BitVec.ofNat 32 (4 * n) + 4#32 = s.pc + BitVec.ofNat 32 (4 * (n + 1)) := by
    rw [BitVec.add_assoc, ← BitVec.ofNat_add]
    rfl
  simp [State.advanceBy, State.advance, hpc, Nat.add_assoc]

/-- Steps that stay below 2^32 move the pc without a wrap (R16). -/
theorem State.toNat_advanceBy_pc {s : State} {n : Nat} (h : s.pc.toNat + 4 * n < 2 ^ 32) :
    (s.advanceBy n).pc.toNat = s.pc.toNat + 4 * n := by
  have hn : (BitVec.ofNat 32 (4 * n)).toNat = 4 * n := by
    rw [BitVec.toNat_ofNat]
    omega
  show (s.pc + BitVec.ofNat 32 (4 * n)).toNat = s.pc.toNat + 4 * n
  rw [BitVec.toNat_add_of_lt (by omega), hn]

/-- A run and one step more. -/
theorem run_succ_of_step {M : Host.Core} {n : Nat} {s t u : M.State} (hn : M.run n s = .next t)
    (hstep : M.step t = .next u) : M.run (n + 1) s = .next u := by
  induction n generalizing s with
  | zero =>
    cases hn
    simp only [Host.Core.run, hstep]
  | succ n ih =>
    rw [Host.Core.run] at hn ⊢
    split at hn
    · exact ih hn
    · cases hn
    · cases hn

/-- Zeroed memory runs as no-operations while there is room for the words: each step only advances, so the next finds
the same zeros. -/
theorem run_of_zeroFromPc {n : Nat} {s : State} (hrun : s.halt = none)
    (hsize : s.memSize ≤ 2 ^ 31) (hzero : s.ZeroFromPc) (hroom : s.pc.toNat + 4 * n ≤ s.memSize) :
    core.run n s = .next (s.advanceBy n) := by
  induction n with
  | zero => rw [State.advanceBy_zero]; rfl
  | succ n ih =>
    have hpc : (s.advanceBy n).pc.toNat = s.pc.toNat + 4 * n := State.toNat_advanceBy_pc (by omega)
    have hguard : (s.advanceBy n).FetchInBounds := by
      show (s.advanceBy n).pc.toNat + 3 < s.memSize
      omega
    have hfetch : (s.advanceBy n).fetchWord = 0#32 :=
      State.ZeroFromPc.fetchWord fun a ha => hzero a (by omega)
    rw [← State.advance_advanceBy]
    exact run_succ_of_step (M := core) (ih (by omega)) (step_of_unimplemented ⟨hrun, hguard, hfetch⟩ decode_zero)

/-- Settles O27: the run of no-operations (`run_of_zeroFromPc`), and the guard failing where the next word has no
room. -/
theorem zeroedMemoryRunsToOutOfRange : Obligations.ZeroedMemoryRunsToOutOfRange := by
  intro n s hrun hsize hzero hroom
  have hn := run_of_zeroFromPc hrun hsize hzero hroom
  refine ⟨hn, fun hfull => ⟨?_, by simp⟩⟩
  have hpc : (s.advanceBy n).pc.toNat = s.pc.toNat + 4 * n := State.toNat_advanceBy_pc (by omega)
  have hguard : ¬ (s.advanceBy n).FetchInBounds := by
    show ¬ (s.advanceBy n).pc.toNat + 3 < s.memSize
    omega
  exact run_succ_of_step (M := core) hn (step_of_guard_fails hrun hguard)

end Sys2Proof.Machine
end

section
/-!
The step cycle (spec/40_step_cycle.md): a step always answers (R84), a halted machine's step changes nothing (R71), and a
step that fetches is the decoded instruction's meaning, carried out in full or, where it halts, not at all (R70, R80).
-/
namespace Sys2Proof.Machine

/-- The halt latch: the step of a halted machine leaves it as it is (R71; D5, log 3). -/
theorem step_of_halted {s : State} {c : HaltCause} (h : s.halt = some c) : step s = .next s := by
  simp only [step, State.fetchStages, h]

/-- A step that fetches is the meaning of the word at the pc in the advanced state (R70, R73 to R75). -/
theorem step_eq_exec {s : State} (hrun : s.halt = none) (hguard : s.FetchInBounds) :
    step s = exec (decode s.fetchWord) s.advance := by
  rw [step_of_fetch hrun hguard, exec_eq_commit_schedule]

/-- Four bytes that are a word's, most significant first, are read big-endian as that word (R32). -/
theorem wordBE_eq_of_eq_bytesBE {b0 b1 b2 b3 : Byte} {w : Word} (h : [b0, b1, b2, b3] = bytesBE w) :
    wordBE b0 b1 b2 b3 = w := by
  simp only [bytesBE, List.cons.injEq, and_true] at h
  obtain ⟨rfl, rfl, rfl, rfl⟩ := h
  exact wordBE_extract w

/-- An instruction moves the pc only as a BEQ, and then to its target (R74, R95). -/
theorem pc_commit_schedule_cases (i : Instr) (s : State) :
    (s.commit (schedule i s)).pc = s.pc ∨ ∃ (rs rt : RegIdx) (off : Imm16),
      i = .beq rs rt off ∧ (s.commit (schedule i s)).pc = branchTarget s.pc off := by
  rw [State.commit_pc]
  split
  · rename_i hc
    obtain ⟨rs, rt, off, hi, -, htarget⟩ := schedule_eq_branch hc
    exact .inr ⟨rs, rt, off, hi, htarget⟩
  · exact .inl rfl

/-- The register write that a schedule reports is carried out, unless it is to register 0 (R11, R78). -/
theorem State.reg_commit_of_regWrite? {s : State} {c : Scheduled} {r : RegIdx} {v : Word}
    (hw : c.regWrite? s.mem = some (r, v)) (hr : r ≠ 0) : (s.commit c).reg r = v := by
  rw [State.commit_reg, hw]
  exact if_pos ⟨rfl, hr⟩

/-- Byte `k` of a data word in memory order, as a number: the least significant byte is first (R35). -/
theorem getElem_bytesLE (w : Word) {k : Nat} (hk : k < (bytesLE w).length) :
    (bytesLE w)[k] = BitVec.ofNat 8 (w.toNat / 2 ^ (8 * k)) := by
  rw [← Nat.shiftRight_eq_div_pow]
  match k, hk with
  | 0, _ | 1, _ | 2, _ | 3, _ => rfl

/-- The four bytes that a data word store leaves at its address (R35, R77). -/
theorem State.byte_storeWord_add (s : State) (ea v : Word) {k : Nat} (hk : k < 4) :
    (s.storeWord ea v).byte (ea.toNat + k) = BitVec.ofNat 8 (v.toNat / 2 ^ (8 * k)) :=
  (s.mem.readByte_memWrite_add ea v hk).trans (getElem_bytesLE v hk)

/-- A running machine is halted with MemoryFault only where its schedule is that fault, and then nothing else
happens (R80, R112). -/
theorem State.commit_eq_takeHalt {s : State} {c : Scheduled} (hrun : s.halt = none)
    (h : (s.commit c).halt = some .memoryFault) : s.commit c = s.takeHalt .memoryFault := by
  rw [State.commit_halt, hrun] at h
  cases c with
  | memoryFault ea => rfl
  | nothing | regWrite | load | store | branch => cases h

/-- Settles O23: the guard stops the step before anything moves; or the fetched instruction's schedule is carried out,
and where that halts the machine it does nothing else (`State.commit_eq_takeHalt`). -/
theorem stepCommitsAllOrNothing : Obligations.StepCommitsAllOrNothing := by
  intro s t hrun hstep
  rcases step_cases hstep with ⟨hhalt, -⟩ | ⟨-, -, rfl⟩ | ⟨-, -, rfl⟩
  · exact absurd hrun hhalt
  · exact ⟨nofun, fun _ => ⟨rfl, fun _ => rfl, fun _ => rfl, rfl⟩, nofun⟩
  · refine ⟨fun _ => ⟨?pc, ?branch, ?regWrite, ?load, ?store, ?frameReg, ?frameByte, ?cycle⟩,
      fun h => absurd h (State.commit_halt_ne_outOfRange (s := s.advance) hrun _), fun h => ?fault⟩
    case pc => exact pc_commit_schedule_cases _ s.advance
    case branch =>
      intro target hc
      rw [hc]
      rfl
    case regWrite =>
      intro r v hc hr
      rw [hc]
      exact State.reg_commit_of_regWrite? rfl hr
    case load =>
      intro r ea hc hr
      rw [hc]
      exact State.reg_commit_of_regWrite? rfl hr
    case store =>
      intro ea v hc k hk
      rw [hc]
      exact s.advance.byte_storeWord_add ea v hk
    case frameReg =>
      intro r hne
      obtain ⟨-, hdest⟩ := dest_of_reg_commit_schedule_ne (s := s.advance) hne
      exact hdest
    case frameByte =>
      intro a hne
      obtain ⟨rt, rs, imm, hi, -, hrange⟩ := sw_of_byte_commit_schedule_ne (s := s.advance) hne
      exact ⟨rt, rs, imm, hi, hrange⟩
    case cycle => exact State.commit_cycle _ _
    case fault =>
      rw [State.commit_eq_takeHalt (s := s.advance) hrun h]
      exact ⟨rfl, fun _ => rfl, fun _ => rfl, rfl⟩

/-- Settles O22: an instruction answers what its schedule commits to; a step is stopped by the latch, stopped by the
guard, or such an instruction. -/
theorem everyStepAnswersANextState : Obligations.EveryStepAnswersANextState := by
  refine ⟨fun i s => ⟨_, exec_eq_commit_schedule i s⟩, fun s => ?_⟩
  cases hhalt : s.halt with
  | some c => exact ⟨s, step_of_halted hhalt⟩
  | none =>
    by_cases hguard : s.FetchInBounds
    · exact ⟨_, step_of_fetch hhalt hguard⟩
    · exact ⟨_, step_of_guard_fails hhalt hguard⟩

/-- Settles O26: only the third way a step can go counts, and it is the one that passes both tests. -/
theorem cycleCountsTheFetches : Obligations.CycleCountsTheFetches := by
  intro s t hstep
  rcases step_cases hstep with ⟨hhalt, rfl⟩ | ⟨-, hguard, rfl⟩ | ⟨hrun, hguard, rfl⟩
  · exact (if_neg fun h => hhalt h.1).symm
  · exact (if_neg fun h => hguard h.2).symm
  · rw [if_pos ⟨hrun, hguard⟩]
    exact State.commit_cycle _ _

/-- Settles O31, by induction on the number of steps. -/
theorem haltedMachineNeverChanges : Obligations.HaltedMachineNeverChanges := by
  intro s c hhalt
  refine ⟨fun n => ?_, traceRecord_of_halted hhalt⟩
  induction n with
  | zero => rfl
  | succ n ih => exact run_succ_of_step (M := core) ih (step_of_halted hhalt)

/-- Settles O21: either way the word at the pc decodes to the instruction; an encoding's bytes are read as its word
and decoded back (`decodeEncodeRoundTrip`). -/
theorem stepRunsTheDecodedInstruction : Obligations.StepRunsTheDecodedInstruction := by
  intro s i hrun hguard hbytes
  have hdecode : decode s.fetchWord = i := by
    rcases hbytes with hok | ⟨hwf, hencoded⟩
    · exact (Prod.mk.inj (Except.ok.inj hok)).1
    · have hword : s.fetchWord = encode i := wordBE_eq_of_eq_bytesBE hencoded
      rw [hword, decodeEncodeRoundTrip i hwf]
  rw [step_eq_exec hrun hguard, hdecode]
  rfl

/-- Settles O29: no room for a fetch is the guard failing, for the step and for its record. -/
theorem outOfRangeHaltChangesOnlyHalt : Obligations.OutOfRangeHaltChangesOnlyHalt := by
  intro s hrun hroom
  have hguard : ¬ s.FetchInBounds := Nat.not_lt.mpr hroom
  exact ⟨step_of_guard_fails hrun hguard, traceRecord_of_guard_fails hrun hguard⟩

end Sys2Proof.Machine
end

section
/-!
ADD, SUB and ADDI (spec/41_arithmetic.md): each is one register write, of a sum or a difference modulo 2^32 that is the
same for the signed and the unsigned reading of its operands (R88).
-/
namespace Sys2Proof.Machine

/-- The unsigned reading of a word is a number that the word stands for, as `BitVec.ofInt_toInt` says of the signed
one (R88). -/
theorem ofInt_toNat (a : Word) : BitVec.ofInt 32 a.toNat = a := by
  rw [BitVec.ofInt_natCast, BitVec.ofNat_toNat, BitVec.setWidth_eq]

/-- Subtraction modulo 2^32 is that of the integers (R86). -/
theorem ofInt_sub (x y : Int) :
    (BitVec.ofInt 32 (x - y) : Word) = BitVec.ofInt 32 x - BitVec.ofInt 32 y := by
  rw [Int.sub_eq_add_neg, BitVec.ofInt_add, BitVec.ofInt_neg, BitVec.sub_eq_add_neg]

/-- The sign-extended immediate is the word of its signed value (R54). -/
theorem sext32_eq_ofInt (imm : Imm16) : sext32 imm = BitVec.ofInt 32 imm.toInt := rfl

section
variable (s : State) (rd rs rt : RegIdx) (shamt : Shamt)

/-- ADD schedules the write of the sum of its registers as numbers (R85). -/
theorem schedule_add : schedule (.add rd rs rt shamt) s =
    .regWrite rd (BitVec.ofNat 32 ((s.reg rs).toNat + (s.reg rt).toNat)) := rfl

/-- SUB schedules the write of the difference of its registers as numbers (R86). -/
theorem schedule_sub : schedule (.sub rd rs rt shamt) s =
    .regWrite rd (BitVec.ofInt 32 ((s.reg rs).toNat - (s.reg rt).toNat)) := by
  rw [ofInt_sub, ofInt_toNat, ofInt_toNat]
  rfl

end

/-- ADDI schedules the write of the sum of its register and its signed immediate as numbers (R87). -/
theorem schedule_addi (s : State) (rt rs : RegIdx) (imm : Imm16) : schedule (.addi rt rs imm) s =
    .regWrite rt (BitVec.ofInt 32 ((s.reg rs).toNat + imm.toInt)) := by
  rw [BitVec.ofInt_add, ofInt_toNat, ← sext32_eq_ofInt]
  rfl

section
variable {i : Instr} {s : State} {rd : RegIdx} {v : Word}

/-- The result and the frame of an instruction that schedules a register write (R78). -/
theorem exec_effect_of_schedule_regWrite (h : schedule i s = .regWrite rd v) :
    ∃ t : State, exec i s = .next t ∧
      (∀ r : RegIdx, t.reg r = if r = rd ∧ r ≠ 0 then v else s.reg r) ∧
      t.pc = s.pc ∧ (∀ a : Nat, t.byte a = s.byte a) ∧ t.halt = s.halt ∧ t.cycle = s.cycle ∧
      t.memSize = s.memSize := by
  have hexec : exec i s = .next (s.writeReg rd v) := by
    rw [exec_eq_commit_schedule, h]
    rfl
  exact ⟨_, hexec, fun r => s.reg_writeReg rd r v, rfl, fun _ => rfl, rfl, rfl, rfl⟩

/-- The result, the frame and the reported write of a step whose instruction schedules a register write
(R70, R78, R79). -/
theorem step_effect_of_schedule_regWrite {w : Word} (hfetch : s.Fetches w)
    (h : schedule (decode w) s.advance = .regWrite rd v) :
    ∃ t : State, step s = .next t ∧
      (∀ r : RegIdx, t.reg r = if r = rd ∧ r ≠ 0 then v else s.reg r) ∧
      t.pc = s.pc + 4#32 ∧ (∀ a : Nat, t.byte a = s.byte a) ∧ t.halt = none ∧
      t.memSize = s.memSize ∧ (traceRecord s).regWrite = some (rd, v) := by
  obtain ⟨hrun, hguard, rfl⟩ := hfetch
  obtain ⟨t, hexec, hreg, hpc, hbyte, hhalt, -, hsize⟩ := exec_effect_of_schedule_regWrite h
  refine ⟨t, (step_eq_exec hrun hguard).trans hexec, hreg, hpc, hbyte, hhalt.trans hrun, hsize, ?_⟩
  rw [traceRecord_of_fetch hrun hguard]
  show (schedule (decode s.fetchWord) s.advance).regWrite? s.mem = some (rd, v)
  rw [h]
  rfl

end

/-- Settles O33: a word of ADD's row decodes to ADD, which schedules the sum (`schedule_add`). -/
theorem addRule : Obligations.AddRule := by
  intro s w hfetch hrow
  apply step_effect_of_schedule_regWrite hfetch
  rw [decode_of_matches_add hrow]
  exact schedule_add s.advance _ _ _ _

/-- Settles O34: a word of SUB's row decodes to SUB, which schedules the difference (`schedule_sub`). -/
theorem subRule : Obligations.SubRule := by
  intro s w hfetch hrow
  apply step_effect_of_schedule_regWrite hfetch
  rw [decode_of_matches_sub hrow]
  exact schedule_sub s.advance _ _ _ _

/-- Settles O35: a word of ADDI's row decodes to ADDI, which schedules the sum (`schedule_addi`). -/
theorem addiRule : Obligations.AddiRule := by
  intro s w hfetch hrow
  apply step_effect_of_schedule_regWrite hfetch
  rw [decode_of_matches_addi hrow]
  exact schedule_addi s.advance _ _ _

/-- Settles O40: each of the three schedules a register write in every state. -/
theorem arithmeticCompletes : Obligations.ArithmeticCompletes := fun s =>
  ⟨fun rd rs rt shamt => exec_effect_of_schedule_regWrite (schedule_add s rd rs rt shamt),
    fun rd rs rt shamt => exec_effect_of_schedule_regWrite (schedule_sub s rd rs rt shamt),
    fun rt rs imm => exec_effect_of_schedule_regWrite (schedule_addi s rt rs imm)⟩

section
variable (a b : Word)

/-- The sum of two words is the word of the sum of either reading (R88). -/
theorem add_eq_ofInt_readings : a + b = BitVec.ofInt 32 (a.toInt + b.toInt) ∧
    a + b = BitVec.ofInt 32 (a.toNat + b.toNat) := by
  rw [BitVec.ofInt_add, BitVec.ofInt_add, BitVec.ofInt_toInt, BitVec.ofInt_toInt, ofInt_toNat,
    ofInt_toNat]
  exact ⟨rfl, rfl⟩

/-- The difference of two words is the word of the difference of either reading (R88). -/
theorem sub_eq_ofInt_readings : a - b = BitVec.ofInt 32 (a.toInt - b.toInt) ∧
    a - b = BitVec.ofInt 32 (a.toNat - b.toNat) := by
  rw [ofInt_sub, ofInt_sub, BitVec.ofInt_toInt, BitVec.ofInt_toInt, ofInt_toNat, ofInt_toNat]
  exact ⟨rfl, rfl⟩

/-- A word plus a signed offset is the same for either reading of the word (R88). -/
theorem add_ofInt_eq_ofInt_readings (d : Int) :
    a + BitVec.ofInt 32 d = BitVec.ofInt 32 (a.toInt + d) ∧
      a + BitVec.ofInt 32 d = BitVec.ofInt 32 (a.toNat + d) := by
  rw [BitVec.ofInt_add, BitVec.ofInt_add, BitVec.ofInt_toInt, ofInt_toNat]
  exact ⟨rfl, rfl⟩

/-- Two words are equal exactly when either reading of them is (R88). -/
theorem equalWords_iff_readings : (equalWords a b = true ↔ a.toNat = b.toNat) ∧
    (equalWords a b = true ↔ a.toInt = b.toInt) := by
  rw [BitVec.toNat_inj, BitVec.toInt_inj, equalWords, beq_iff_eq]
  exact ⟨.rfl, .rfl⟩

end

/-- Settles O46: the registers ADD, SUB and ADDI write hold the sums and the difference of the words, and these, the
address, the target and the comparison do not tell the two readings apart. -/
theorem signedAndUnsignedAgree : Obligations.SignedAndUnsignedAgree := by
  refine ⟨fun s rd rs rt shamt hrd => ?add_sub, fun s rt rs imm hrt => ?addi, fun b imm => ?address,
    fun p off => ?target, equalWords_iff_readings⟩
  case add_sub =>
    have hadd : (s.commit (schedule (.add rd rs rt shamt) s)).reg rd = s.reg rs + s.reg rt :=
      State.reg_commit_of_regWrite? rfl hrd
    have hsub : (s.commit (schedule (.sub rd rs rt shamt) s)).reg rd = s.reg rs - s.reg rt :=
      State.reg_commit_of_regWrite? rfl hrd
    obtain ⟨haddSigned, haddUnsigned⟩ := add_eq_ofInt_readings (s.reg rs) (s.reg rt)
    obtain ⟨hsubSigned, hsubUnsigned⟩ := sub_eq_ofInt_readings (s.reg rs) (s.reg rt)
    exact ⟨_, _, exec_eq_commit_schedule _ s, exec_eq_commit_schedule _ s, hadd.trans haddSigned,
      hadd.trans haddUnsigned, hsub.trans hsubSigned, hsub.trans hsubUnsigned⟩
  case addi =>
    have haddi : (s.commit (schedule (.addi rt rs imm) s)).reg rt = s.reg rs + sext32 imm :=
      State.reg_commit_of_regWrite? rfl hrt
    rw [sext32_eq_ofInt] at haddi
    obtain ⟨hsigned, hunsigned⟩ := add_ofInt_eq_ofInt_readings (s.reg rs) imm.toInt
    exact ⟨_, exec_eq_commit_schedule _ s, haddi.trans hsigned, haddi.trans hunsigned⟩
  case address =>
    rw [effectiveAddress, sext32_eq_ofInt]
    exact add_ofInt_eq_ofInt_readings b imm.toInt
  case target =>
    rw [branchTarget, sext32_shiftLeft_two]
    exact add_ofInt_eq_ofInt_readings p (4 * off.toInt)

end Sys2Proof.Machine
end

section
/-!
LW and SW (spec/42_load_store.md): in bounds LW is one register write and SW one data word store, at any alignment, and
out of bounds each is the MemoryFault halt alone (R90 to R92, R112).
-/
namespace Sys2Proof.Machine

/-- The data word at an address is the sum of its bytes by weight, least significant first (R34). -/
theorem Memory.memRead_eq_ofNat (m : Memory) (a : Word) :
    m.memRead a = BitVec.ofNat 32 ((m.readByte a.toNat).toNat +
      (m.readByte (a.toNat + 1)).toNat * 2 ^ 8 + (m.readByte (a.toNat + 2)).toNat * 2 ^ 16 +
      (m.readByte (a.toNat + 3)).toNat * 2 ^ 24) := by
  obtain ⟨hvalue, -⟩ := dataWordRoundTrip m a 0#32
  rw [← hvalue, BitVec.ofNat_toNat, BitVec.setWidth_eq]

/-- A data word store leaves every byte outside its four as it was (R35, R92). -/
theorem State.byte_storeWord_outside (s : State) {ea v : Word} {a : Nat}
    (h : a < ea.toNat ∨ ea.toNat + 4 ≤ a) : (s.storeWord ea v).byte a = s.byte a :=
  s.mem.readByte_writeBytes_outside h

section
variable {s : State} {w : Word} {c : Scheduled}

/-- A step that fetches carries out the schedule of the word it fetches (R70). -/
theorem step_of_schedule (hfetch : s.Fetches w) (h : schedule (decode w) s.advance = c) :
    step s = .next (s.advance.commit c) := by
  obtain ⟨hrun, hguard, rfl⟩ := hfetch
  rw [step_of_fetch hrun hguard, h]

/-- The accesses that a step that fetches reports are those of its schedule (R79). -/
theorem traceRecord_accesses_of_schedule (hfetch : s.Fetches w)
    (h : schedule (decode w) s.advance = c) :
    (traceRecord s).memRead = c.memRead? s.mem ∧ (traceRecord s).memWrite = c.memWrite? ∧
      (traceRecord s).regWrite = c.regWrite? s.mem := by
  obtain ⟨hrun, hguard, rfl⟩ := hfetch
  rw [traceRecord_of_fetch hrun hguard, ← h]
  exact ⟨rfl, rfl, rfl⟩

/-- A step whose instruction schedules the fault halts with the pc advanced and changes no register and no byte
(R112). -/
theorem step_effect_of_schedule_memoryFault {ea : Word} (hfetch : s.Fetches w)
    (h : schedule (decode w) s.advance = .memoryFault ea) :
    ∃ t : State, step s = .next t ∧ t.halt = some .memoryFault ∧ t.pc = s.pc + 4#32 ∧
      (∀ r : RegIdx, t.reg r = s.reg r) ∧ (∀ a : Nat, t.byte a = s.byte a) ∧
      t.memSize = s.memSize :=
  ⟨_, step_of_schedule hfetch h, rfl, rfl, fun _ => rfl, fun _ => rfl, rfl⟩

end

/-- Settles O41: the one register write that LW is in bounds is of the sum of the bytes at its address. -/
theorem lwCompletes : Obligations.LwCompletes := by
  intro s rt rs imm hb
  refine ⟨_, exec_lw_of_inBounds hb, fun r => ?_, rfl, fun _ => rfl, rfl, rfl, rfl⟩
  rw [State.reg_writeReg, Memory.memRead_eq_ofNat]
  rfl

/-- Settles O42: the one data word store that SW is in bounds lays the register's bytes down at its address. -/
theorem swCompletes : Obligations.SwCompletes := fun s _ _ _ hb =>
  ⟨_, exec_sw_of_inBounds hb, fun _ hk => s.byte_storeWord_add _ _ hk,
    fun _ ha => s.byte_storeWord_outside ha, fun _ => rfl, rfl, rfl, rfl, rfl⟩

/-- Settles O36: a word of LW's row decodes to LW, which schedules the read of the word at its address in bounds, and
the fault out of bounds, whatever the destination. -/
theorem lwRule : Obligations.LwRule := by
  intro s w ea v hfetch hrow hea hv
  have hvalue : s.mem.memRead ea = v := hv.symm
  have hlw : schedule (decode w) s.advance =
      if InBounds4 s.memSize ea then .load (rtOf w) ea else .memoryFault ea := by
    rw [decode_of_matches_lw hrow, hea]
    exact schedule_lw _ _ _ s.advance
  refine ⟨fun hb => ?completes, fun hb => ?traps⟩
  case completes =>
    rw [if_pos hb] at hlw
    obtain ⟨hread, -, hwrite⟩ := traceRecord_accesses_of_schedule hfetch hlw
    have hrun : s.halt = none := hfetch.1
    subst hvalue
    exact ⟨_, step_of_schedule hfetch hlw, fun r => s.advance.reg_writeReg (rtOf w) r _, rfl,
      fun _ => rfl, hrun, rfl, hread, hwrite⟩
  case traps =>
    rw [if_neg (Nat.not_lt.mpr hb)] at hlw
    exact step_effect_of_schedule_memoryFault hfetch hlw

/-- Settles O37: a word of SW's row decodes to SW, which schedules the store of its register in bounds, and the fault
out of bounds. -/
theorem swRule : Obligations.SwRule := by
  intro s w ea hfetch hrow hea
  have hsw : schedule (decode w) s.advance =
      if InBounds4 s.memSize ea then .store ea (s.reg (rtOf w)) else .memoryFault ea := by
    rw [decode_of_matches_sw hrow, hea]
    exact schedule_sw _ _ _ s.advance
  refine ⟨fun hb => ?completes, fun hb => ?traps⟩
  case completes =>
    rw [if_pos hb] at hsw
    obtain ⟨-, hwrite, -⟩ := traceRecord_accesses_of_schedule hfetch hsw
    have hrun : s.halt = none := hfetch.1
    have hbyte (k : Nat) (hk : k < 4) :=
      s.mem.readByte_memWrite_add ea (s.reg (rtOf w)) (k := k) hk
    exact ⟨_, step_of_schedule hfetch hsw, hbyte 0 (by decide), hbyte 1 (by decide),
      hbyte 2 (by decide), hbyte 3 (by decide), fun _ ha => s.advance.byte_storeWord_outside ha,
      fun _ => rfl, rfl, hrun, rfl, hwrite⟩
  case traps =>
    rw [if_neg (Nat.not_lt.mpr hb)] at hsw
    exact step_effect_of_schedule_memoryFault hfetch hsw

end Sys2Proof.Machine
end

section
/-!
BEQ (spec/43_branch.md): in every state it is one pc write, of the target or of the pc that the step has already advanced
(R95); its targets from an aligned pc are aligned (R97).
-/
namespace Sys2Proof.Machine

/-- The target as a number, from the pc already advanced (R95). -/
theorem branchTarget_eq_ofInt (p : Word) (off : Imm16) :
    branchTarget p off = BitVec.ofInt 32 (p.toNat + 4 * off.toInt) := by
  rw [branchTarget, sext32_shiftLeft_two, BitVec.ofInt_add, ofInt_toNat]

/-- Offset 0 falls through (R95). -/
theorem branchTarget_zero (p : Word) : branchTarget p 0#16 = p := by
  have hoffset : sext32 0#16 <<< 2 = 0#32 := by decide
  rw [branchTarget, hoffset, BitVec.add_zero]

/-- Offset -1 takes the pc advance back (R95). -/
theorem branchTarget_neg_one (p : Word) : branchTarget (p + 4#32) 0xFFFF#16 = p := by
  have hoffset : sext32 0xFFFF#16 <<< 2 = -4#32 := by decide
  rw [branchTarget, hoffset, ← BitVec.sub_eq_add_neg, BitVec.add_sub_cancel]

/-- BEQ is one pc write in every state (R95). -/
theorem exec_beq (s : State) (rs rt : RegIdx) (off : Imm16) :
    exec (.beq rs rt off) s =
      .next (s.setPc (if s.reg rs = s.reg rt then branchTarget s.pc off else s.pc)) := by
  rw [exec_eq_commit_schedule, commit_schedule_beq]

/-- A step that fetches a word of BEQ's row is the advance and one pc write (R70, R95). -/
theorem step_of_matches_beq {s : State} {w : Word} (hfetch : s.Fetches w)
    (hrow : Mnemonic.beq.Matches w) :
    step s = .next (s.advance.setPc (if s.reg (rsOf w) = s.reg (rtOf w) then
      branchTarget (s.pc + 4#32) (imm16Of w) else s.pc + 4#32)) := by
  obtain ⟨hrun, hguard, rfl⟩ := hfetch
  rw [step_eq_exec hrun hguard, decode_of_matches_beq hrow, exec_beq]
  rfl

/-- Settles O38: the one pc write of a BEQ word's step (`step_of_matches_beq`), in its two cases. -/
theorem beqRule : Obligations.BeqRule := by
  intro s w hfetch hrow
  have hrun : s.halt = none := hfetch.1
  refine ⟨_, step_of_matches_beq hfetch hrow, fun heq => ?taken, fun hne => ?notTaken,
    fun _ => rfl, fun _ => rfl, hrun, rfl⟩
  case taken => rw [State.setPc_pc, if_pos heq, branchTarget_add_four]
  case notTaken => rw [State.setPc_pc, if_neg hne]

/-- Settles O44: BEQ writes the pc and nothing else (`exec_beq`). -/
theorem beqCompletes : Obligations.BeqCompletes := by
  intro s rs rt off
  refine ⟨_, exec_beq s rs rt off, ?_, fun _ => rfl, fun _ => rfl, rfl, rfl, rfl⟩
  rw [State.setPc_pc, branchTarget_eq_ofInt]

/-- Settles O47: the offset is a multiple of 4, and so is 2^32, where the sum wraps. -/
theorem branchTargetsAreAligned : Obligations.BranchTargetsAreAligned :=
  fun _ off haligned => toNat_branchTarget_mod_four haligned off

/-- Settles O48: offset -1 takes the advance back, and offset 0 makes the two cases of the pc write the same. -/
theorem branchOffsetCorners : Obligations.BranchOffsetCorners := by
  intro s w hfetch hrow
  refine ⟨_, step_of_matches_beq hfetch hrow, fun heq hoff => ?back, fun hoff => ?through⟩
  case back => rw [State.setPc_pc, if_pos heq, hoff, branchTarget_neg_one]
  case through => rw [State.setPc_pc, hoff, branchTarget_zero, ite_self]

end Sys2Proof.Machine
end

section
/-!
UNIMPLEMENTED (spec/44_unimplemented.md): every word that is none of the six is one pc advance, whatever its bits, and its
record reports no access (R100).
-/
namespace Sys2Proof.Machine

/-- UNIMPLEMENTED changes nothing in any state: the pc has been advanced before (R100). -/
theorem exec_unimplemented (s : State) (w : Word) : exec (.unimplemented w) s = .next s := by
  rw [exec_eq_commit_schedule]
  rfl

/-- The words that are none of the six, by the numbers of their opcode and funct fields (R100). -/
theorem isUnimplementedWord_iff_toNat (w : Word) :
    isUnimplementedWord w = true ↔
      (¬ (w.toNat / 2 ^ 26 = 0x00 ∨ w.toNat / 2 ^ 26 = 0x04 ∨ w.toNat / 2 ^ 26 = 0x08 ∨
          w.toNat / 2 ^ 26 = 0x23 ∨ w.toNat / 2 ^ 26 = 0x2B) ∨
        w.toNat / 2 ^ 26 = 0x00 ∧ w.toNat % 2 ^ 6 ≠ 0x20 ∧ w.toNat % 2 ^ 6 ≠ 0x22) := by
  simp only [isUnimplementedWord_iff, ne_eq, opcodeOf_eq_iff, functOf_eq_iff, not_or]
  rfl

/-- The record of a fetched UNIMPLEMENTED word: the word and its mnemonic, no access, verdict Continue (R79, R100). -/
theorem traceRecord_of_unimplemented {s : State} {w : Word} (hfetch : s.Fetches w)
    (hdecode : decode w = .unimplemented w) :
    traceRecord s = { cycle := s.cycle + 1, oldPC := s.pc, word := some w,
                      mnemonic := some .unimplemented, memWrite := none, memRead := none,
                      regWrite := none, verdict := .continue } := by
  obtain ⟨hrun, hguard, rfl⟩ := hfetch
  rw [traceRecord_of_fetch hrun hguard, fetchedRecord, hdecode]
  rfl

/-- Settles O45: UNIMPLEMENTED schedules nothing, so carrying its schedule out leaves the state as it is. -/
theorem unimplementedCompletes : Obligations.UnimplementedCompletes := exec_unimplemented

/-- Settles O39: a word that is none of the six decodes to UNIMPLEMENTED, so its step is the advance alone
(`step_of_unimplemented`) and its record reports nothing but the word (`traceRecord_of_unimplemented`). -/
theorem unimplementedRule : Obligations.UnimplementedRule := by
  intro s w hfetch hnone
  have hdecode : decode w = .unimplemented w :=
    decode_of_isUnimplementedWord ((isUnimplementedWord_iff_toNat w).mpr hnone)
  have hrun : s.halt = none := hfetch.1
  exact ⟨s.advance, step_of_unimplemented hfetch hdecode, rfl, fun _ => rfl, fun _ => rfl, hrun, rfl,
    rfl, traceRecord_of_unimplemented hfetch hdecode⟩

end Sys2Proof.Machine
end

section
/-!
Exceptions (spec/60_exceptions.md): the MemoryFault of LW and SW, whole (R112); the two causes of a halt and their
conditions (R110, R113, R115); and instances side by side, which share no state (R122).
-/
namespace Sys2Proof.Machine

section
variable {i : Instr} {s : State} {rt rs : RegIdx} {imm : Imm16}

/-- LW and SW whose four bytes do not all exist schedule the fault (R90, R112). -/
theorem schedule_memoryFault_of_outOfBounds (hi : i = .lw rt rs imm ∨ i = .sw rt rs imm)
    (h : s.memSize ≤ (effectiveAddress (s.reg rs) imm).toNat + 3) :
    schedule i s = .memoryFault (effectiveAddress (s.reg rs) imm) := by
  have hb : ¬ InBounds4 s.memSize (effectiveAddress (s.reg rs) imm) := Nat.not_lt.mpr h
  rcases hi with rfl | rfl
  · exact schedule_lw_of_not_inBounds hb
  · exact schedule_sw_of_not_inBounds hb

/-- LW and SW out of bounds are the halt alone (R112). -/
theorem exec_eq_takeHalt_of_outOfBounds (hi : i = .lw rt rs imm ∨ i = .sw rt rs imm)
    (h : s.memSize ≤ (effectiveAddress (s.reg rs) imm).toNat + 3) :
    exec i s = .next (s.takeHalt .memoryFault) := by
  rw [exec_eq_commit_schedule, schedule_memoryFault_of_outOfBounds hi h]
  rfl

end

/-- Exactly LW and SW out of bounds schedule the fault (R112, R115). -/
theorem exists_schedule_eq_memoryFault_iff {i : Instr} {s : State} :
    (∃ ea : Word, schedule i s = .memoryFault ea) ↔
      ∃ (rt rs : RegIdx) (imm : Imm16), (i = .lw rt rs imm ∨ i = .sw rt rs imm) ∧
        s.memSize ≤ (effectiveAddress (s.reg rs) imm).toNat + 3 := by
  constructor
  · rintro ⟨ea, h⟩
    obtain ⟨hb, rt, rs, imm, hi, rfl⟩ := schedule_eq_memoryFault h
    exact ⟨rt, rs, imm, hi, Nat.not_lt.mp hb⟩
  · rintro ⟨rt, rs, imm, hi, hb⟩
    exact ⟨_, schedule_memoryFault_of_outOfBounds hi hb⟩

/-- A schedule halts a running machine with MemoryFault exactly where it is that fault. -/
theorem State.commit_halt_eq_memoryFault_iff {s : State} (hrun : s.halt = none) (c : Scheduled) :
    (s.commit c).halt = some .memoryFault ↔ ∃ ea : Word, c = .memoryFault ea := by
  rw [State.commit_halt, hrun]
  cases c <;> simp

/-- The record of a step that MemoryFault ends: the word and its mnemonic, no access (R79, R112). -/
theorem traceRecord_of_schedule_memoryFault {s : State} {w ea : Word} (hfetch : s.Fetches w)
    (h : schedule (decode w) s.advance = .memoryFault ea) :
    traceRecord s = { cycle := s.cycle + 1, oldPC := s.pc, word := some w,
                      mnemonic := some (decode w).mnemonic, memWrite := none, memRead := none,
                      regWrite := none, verdict := .halt .memoryFault } := by
  obtain ⟨hrun, hguard, rfl⟩ := hfetch
  rw [traceRecord_of_fetch hrun hguard, fetchedRecord, h]
  rfl

/-- Settles O43: both carry out the halt alone (`exec_eq_takeHalt_of_outOfBounds`). -/
theorem lwSwTrapOutOfBounds : Obligations.LwSwTrapOutOfBounds := fun _ _ _ _ h =>
  ⟨exec_eq_takeHalt_of_outOfBounds (.inl rfl) h, exec_eq_takeHalt_of_outOfBounds (.inr rfl) h⟩

/-- Settles O30: a word of either row schedules the fault in the advanced state, which the step carries out and the
record reports; the rows exclude each other, so the record names the row the word matches. -/
theorem memoryFaultHaltKeepsRegistersAndMemory :
    Obligations.MemoryFaultHaltKeepsRegistersAndMemory := by
  intro s w hfetch hrow hb
  have hdecode : decode w = .lw (rtOf w) (rsOf w) (imm16Of w) ∨
      decode w = .sw (rtOf w) (rsOf w) (imm16Of w) :=
    hrow.imp decode_of_matches_lw decode_of_matches_sw
  have hfault := schedule_memoryFault_of_outOfBounds (s := s.advance) hdecode hb
  have hmnemonic : (decode w).mnemonic = if Mnemonic.lw.Matches w then .lw else .sw := by
    split
    · rename_i hlw
      exact mnemonic_decode_of_matches (by decide) hlw
    · rename_i hlw
      exact mnemonic_decode_of_matches (by decide) (hrow.resolve_left hlw)
  rw [← hmnemonic]
  exact ⟨step_of_schedule hfetch hfault, traceRecord_of_schedule_memoryFault hfetch hfault⟩

/-- Settles O32: the guard stops the step exactly with OutOfRange; past the guard no schedule does, and MemoryFault is
left exactly by the schedule of an LW or SW out of bounds (`exists_schedule_eq_memoryFault_iff`). -/
theorem exactlyTwoExceptions : Obligations.ExactlyTwoExceptions := by
  intro s t hrun hstep
  rcases step_cases hstep with ⟨hhalt, -⟩ | ⟨-, hguard, rfl⟩ | ⟨-, hguard, rfl⟩
  · exact absurd hrun hhalt
  · exact ⟨⟨fun _ => Nat.not_lt.mp hguard, fun _ => rfl⟩, nofun, fun h => absurd h.1 hguard⟩
  · refine ⟨⟨fun h => ?_, fun h => absurd hguard (Nat.not_lt.mpr h)⟩, ?_⟩
    · exact absurd h (State.commit_halt_ne_outOfRange (s := s.advance) hrun _)
    · rw [State.commit_halt_eq_memoryFault_iff (s := s.advance) hrun,
        exists_schedule_eq_memoryFault_iff]
      exact (and_iff_right hguard).symm

section
variable {n : Nat} (k : Fin n) (machines : Vector State n)

/-- Stepping an instance always answers: its own state is replaced by what its step comes to, and no other is
(R84, R122). -/
theorem exists_stepInstance_eq_set : ∃ t : State, step machines[k] = .next t ∧
    stepInstance k machines = .next (machines.set k t) := by
  obtain ⟨-, htotal⟩ := everyStepAnswersANextState
  obtain ⟨t, ht⟩ := htotal machines[k]
  exact ⟨t, ht, stepInstance_of_step ht⟩

variable {k machines}

/-- What an instance comes to is the step of its own state. -/
theorem step_of_stepInstance {after : Vector State n}
    (h : stepInstance k machines = .next after) : step machines[k] = .next after[k] := by
  obtain ⟨t, ht, hset⟩ := exists_stepInstance_eq_set k machines
  obtain rfl := Host.Outcome.next.inj (hset.symm.trans h)
  rw [ht, Fin.getElem_fin, Vector.getElem_set_self]

/-- The step of another instance, which stands as it did, after instance `k` was stepped. -/
theorem stepInstance_set_of_ne {j : Fin n} {t u : State} (hne : j ≠ k)
    (h : step machines[j] = .next u) :
    stepInstance j (machines.set k t) = .next ((machines.set k t).set j u) := by
  apply stepInstance_of_step
  rw [← h, Fin.getElem_fin, Vector.getElem_set_ne _ _ (Fin.val_ne_of_ne hne.symm)]
  rfl

end

/-- Settles O57: a step of an instance writes its own entry with the step of that entry
(`exists_stepInstance_eq_set`), so it depends on that entry alone, and writes of two entries commute. -/
theorem instancesShareNoState : Obligations.InstancesShareNoState := by
  intro n machines k
  obtain ⟨t, ht, hset⟩ := exists_stepInstance_eq_set k machines
  refine ⟨⟨_, hset, step_of_stepInstance hset, fun j hj => ?others⟩, ?own, fun j hj => ?commute⟩
  case others => exact Vector.getElem_set_ne _ _ (Fin.val_ne_of_ne hj.symm)
  case own =>
    intro m others othersAfter after l hsame hk hl
    have hown := step_of_stepInstance hl
    rw [hsame, step_of_stepInstance hk] at hown
    exact (Host.Outcome.next.inj hown).symm
  case commute =>
    obtain ⟨u, hu, hset'⟩ := exists_stepInstance_eq_set j machines
    refine ⟨_, _, _, hset, stepInstance_set_of_ne hj hu, hset', ?_⟩
    rw [stepInstance_set_of_ne hj.symm ht, Vector.set_comm _ _ (Fin.val_ne_of_ne hj)]

end Sys2Proof.Machine
end

section
/-!
The bytes of a launch state: the program from the load address on, and the image above it
(spec/70_reset_and_hazards.md rules R133 and R134, decision D14); and that a launch state meets the invariant.
-/
namespace Sys2Proof.Machine

/-- Settles O52: a launch that succeeds makes the launch state, which meets the invariant (`inv_launchState`). -/
theorem launchMeetsTheInvariant : Obligations.LaunchMeetsTheInvariant := by
  intro n image program s h
  obtain ⟨hfits, rfl⟩ := launch_eq_next_iff.mp h
  exact inv_launchState hfits

/-- Byte `k` of word `i` of a block of words stored big-endian from `a` (R33, R133). -/
theorem Memory.readByte_writeBytes_flatMap_bytesBE (m : Memory) (a : Nat) {ws : List Word} {i k : Nat}
    (hi : i < ws.length) (hk : k < (bytesBE ws[i]).length) :
    (m.writeBytes a (ws.flatMap bytesBE)).readByte (a + 4 * i + k) = (bytesBE ws[i])[k] := by
  induction ws generalizing m a i with
  | nil => exact absurd hi (Nat.not_lt_zero i)
  | cons w ws ih =>
    rw [List.flatMap_cons, Memory.writeBytes_append, length_bytesBE]
    cases i with
    | zero =>
      have hbelow : a + 4 * 0 + k < a + 4 := by
        rw [length_bytesBE] at hk
        omega
      rw [Memory.readByte_writeBytes_outside _ (.inl hbelow)]
      exact m.readByte_writeBytes_add a hk
    | succ i =>
      have haddr : a + 4 * (i + 1) + k = a + 4 + 4 * i + k := by omega
      rw [haddr]
      exact ih _ _ (Nat.lt_of_succ_lt_succ hi) hk

/-- A byte after an image was written: the last value that the image assigns to it, or the old byte (R134). -/
theorem Memory.readByte_writeImage (image : List Host.Cell) (m : Memory) (a : Nat) :
    (writeImage image m).readByte a =
      ((image.reverse.find? (fun cell => cell.1 = a)).map Prod.snd).getD (m.readByte a) := by
  induction image generalizing m with
  | nil => rfl
  | cons cell image ih =>
    rw [writeImage, ih, Memory.readByte_writeByte, List.reverse_cons, List.find?_append]
    cases image.reverse.find? (fun cell => cell.1 = a) with
    | some last => rfl
    | none =>
      by_cases ha : cell.1 = a
      · simp [ha]
      · simp [ha, Ne.symm ha]

section
variable (n : Nat) (image : List Host.Cell) {program : List Word}

/-- The loader places the program's words in order, each most significant byte first (R133). -/
theorem byte_launchState_program {i k : Nat} (hi : i < program.length)
    (hk : k < (bytesBE program[i]).length) :
    (launchState n image program).byte (4 * i + k) = (bytesBE program[i])[k] := by
  have hread := (writeImage image []).readByte_writeBytes_flatMap_bytesBE Config.loadAddress hi hk
  rwa [Config.loadAddress, Nat.zero_add] at hread

/-- Above the program a byte is the image's last value for it, or 0 (R134). -/
theorem byte_launchState_above_program {a : Nat} (ha : 4 * program.length ≤ a) :
    (launchState n image program).byte a =
      ((image.reverse.find? (fun cell => cell.1 = a)).map Prod.snd).getD 0#8 := by
  have habove : Config.loadAddress + (program.flatMap bytesBE).length ≤ a := by
    rwa [length_flatMap_bytesBE, Config.loadAddress, Nat.zero_add]
  calc (launchState n image program).byte a
    _ = (writeImage image []).readByte a := Memory.readByte_writeBytes_outside _ (.inr habove)
    _ = _ := Memory.readByte_writeImage image [] a

end

/-- Settles O55: the launch state's bytes above the program. -/
theorem launchWritesTheImage : Obligations.LaunchWritesTheImage := by
  intro n image program s h a ha
  obtain ⟨-, rfl⟩ := launch_eq_next_iff.mp h
  exact byte_launchState_above_program n image ha

/-- Settles O54: the four bytes of each word of the program, and no value in the image for a byte it does not set. -/
theorem launchPlacesTheProgram : Obligations.LaunchPlacesTheProgram := by
  intro n image program s h
  obtain ⟨-, rfl⟩ := launch_eq_next_iff.mp h
  constructor
  · intro i hi
    have hbyte (k : Nat) (hk : k < 4) := byte_launchState_program n image hi (k := k) hk
    exact ⟨hbyte 0 (by decide), hbyte 1 (by decide), hbyte 2 (by decide), hbyte 3 (by decide)⟩
  · intro a ha hunset
    have hnone : image.reverse.find? (fun cell => cell.1 = a) = none := by
      simpa [List.find?_eq_none] using hunset
    rw [byte_launchState_above_program n image ha, hnone]
    rfl

end Sys2Proof.Machine
end

section
/-!
The spec's sample words (95_test_vectors.md sections 1.7, 2.1 to 2.8): a word of the six is the encoding of its
instruction (R61), and the others match no row.
-/
namespace Sys2Proof

/-- A word that the encoder gives for a well-formed instruction decodes to that instruction (R55, R61). -/
theorem decode_eq_of_encode_eq {i : Instr} {w : Word} (hwf : i.wf = true) (h : encode i = w) :
    decode w = i :=
  h ▸ decodeEncodeRoundTrip i hwf

/-- Settles O7: the encoder gives the words of the six, and the round trip decodes them; the last two are UNIMPLEMENTED
words. -/
theorem specWordsDecodeRight : Obligations.SpecWordsDecodeRight := by
  refine ⟨?add, ?addShamt31, ?sub, ?addi, ?lw, ?sw, ?beq, ?functNextToAdd, Machine.decode_zero⟩
  case functNextToAdd => exact decode_of_isUnimplementedWord (by decide)
  all_goals exact decode_eq_of_encode_eq rfl (by decide)

end Sys2Proof
end
